-- ==== Sys2Proof/Word.lean ====
section
/-! DEFINITION. The words of the block: what the spec treats as bits (00_scope.md R9, R10). -/

namespace Sys2Proof

/-- One byte of a payload or of the caller's output buffer. -/
abbrev Byte := BitVec 8

/-- A report-ID byte (30_encoding.md R48). -/
abbrev ReportId := BitVec 8

/-- A 2-bit encoder level `{A, B}`, A the more significant bit (10_state.md R17). -/
abbrev Level := BitVec 2

/-- The command word of format `CMD` (30_encoding.md R44). -/
abbrev CmdWord := BitVec 10

/-- The ButtonVector. 21 bits is the wider of the two widths W; a V6 vector (W = 6) stands in the same
type with its bits at and above W zero (log 14). -/
abbrev ButtonVec := BitVec 21

end Sys2Proof
end

