-- ==== Sys2Proof/Config.lean ====
section
/-! DEFINITION. What is fixed before the first command (00_scope.md R3, R4, R5), and the one value the spec
leaves open. The table of what follows from the variant is Machine/Params.lean. -/

namespace Sys2Proof

/-- The two configurations in which the block exists (00_scope.md R3). Any other is refused by having no
term: the model has no run for it (60_exceptions.md R92). -/
inductive Variant where
  | v21  -- "combined keypad with 5 quadrature rotary encoders producing 21 logical buttons"
  | v6   -- "6-button keypad"
  deriving DecidableEq, Repr

/-- The two parameters a model takes as arguments (00_scope.md R4): `VARIANT` and `REPORT_ID_GAMEPAD`. -/
structure Config where
  variant  : Variant
  reportId : ReportId
  deriving DecidableEq, Repr

/-- FREE VALUE. The value of `REPORT_ID_GAMEPAD`, which the source names and never gives
(92_eei_decisions.md D6: OPEN). Nothing in Lean can evaluate it (log 4). -/
opaque Config.openReportId : ReportId

end Sys2Proof
end

