-- ==== Sys2Proof/Syntax.lean ====
section
/-! DEFINITION. The commands, one constructor per row of spec/opcode_table.json, and what a command comes with:
the snapshot of the input lines and the port values of one step (30_encoding.md R44 to R48). -/

namespace Sys2Proof

/-- The five commands. `NOP` and `TICK` have no operand in the word: their `rid` bits are ignored
(30_encoding.md R48, R52). The snapshot is a side input of the step and not part of the word, so it is no
argument here (R47). -/
inductive Instr where
  | nop
  | tick
  | getReport (rid : ReportId)
  | setReport (rid : ReportId)
  | reset
  deriving DecidableEq, Repr

/-- The input snapshot `S`: one logical value per configured line, `true` = asserted, each list in
declaration order from index 0 (30_encoding.md R47, 00_scope.md R10). -/
structure Snapshot where
  btn  : List Bool  -- `RegularButton`
  ebtn : List Bool  -- `EncoderButton`
  a    : List Bool  -- `EncoderA` of encoder k
  b    : List Bool  -- `EncoderB` of encoder k
  deriving DecidableEq, Repr

/-- The reset strobe and the command word of one step (30_encoding.md R44, R45). -/
structure PortWord where
  rst  : Bool
  word : CmdWord
  deriving DecidableEq, Repr

/-- One step's inputs, the spec's triple (rst, word, S) (42_commands.md R87). -/
structure Input where
  port : PortWord
  snap : Snapshot
  deriving DecidableEq, Repr

end Sys2Proof
end

