-- ==== Sys2Proof/Decode.lean ====
section
/-! DEFINITION. Decoding and encoding (30_encoding.md R44 to R46, R48, R52, R54, R55; 42_commands.md R81). -/

namespace Sys2Proof

/-- Field `cmd`, bits 9:8 of the command word (30_encoding.md R44). -/
def cmdField (w : CmdWord) : BitVec 2 := w.extractLsb' 8 2

/-- Field `rid`, bits 7:0 of the command word (30_encoding.md R44). -/
def ridField (w : CmdWord) : ReportId := w.extractLsb' 0 8

/-- The command of a command word: all four values of `cmd` are assigned, so this is total
(30_encoding.md R46, R52). -/
def decodeWord (w : CmdWord) : Instr :=
  if cmdField w = 0b00#2 then .nop
  else if cmdField w = 0b01#2 then .tick
  else if cmdField w = 0b10#2 then .getReport (ridField w)
  else .setReport (ridField w)

/-- What a step is given to do: `rst = 1` issues RESET in place of the command word
(30_encoding.md R45, 60_exceptions.md R95). -/
def decodePort (p : PortWord) : Instr :=
  if p.rst then .reset else decodeWord p.word

/-- The command that one step's inputs give. -/
def Input.command (inp : Input) : Instr := decodePort inp.port

/-- Why bits handed over as a number are no command. -/
inductive DecodeError where
  /-- A `CMD` number with a bit above bit 9: the word is 10 bits wide (30_encoding.md R44). -/
  | wordOver10Bits
  /-- An `RST` number with a bit above bit 0: the port is 1 bit wide (30_encoding.md R45). -/
  | strobeOver1Bit
  deriving DecidableEq, Repr

/-- The port values that a row's bits stand for (log 15): a row of at most 8 bits is format `RST` (bit 0 is
`rst`, no bit of the word is given and all are 0), a longer one is format `CMD` (`rst = 0`). -/
def portOfBits (nbits w : Nat) : Except DecodeError PortWord :=
  if nbits ≤ 8 then
    if w < 2 then .ok ⟨w == 1, 0x000#10⟩ else .error .strobeOver1Bit
  else
    if w < 1024 then .ok ⟨false, BitVec.ofNat 10 w⟩ else .error .wordOver10Bits

/-- `portOfBits` as an option. -/
def portOfBits? (nbits w : Nat) : Option PortWord :=
  match portOfBits nbits w with
  | .ok p    => some p
  | .error _ => none

/-- The instruction this decoder reads from a row's bits, numbered as spec/opcode_table.json numbers them. -/
def decodeTableWord (nbits w : Nat) : Option Instr :=
  (portOfBits? nbits w).map decodePort

/-- The port values an assembler writes: `rid` bits of NOP and TICK are 0 (30_encoding.md R52, R55); the word
beside RESET, which is discarded, is written 0 (log 16). -/
def encode : Instr → PortWord
  | .nop           => ⟨false, 0x000#10⟩
  | .tick          => ⟨false, 0x100#10⟩
  | .getReport rid => ⟨false, 0x200#10 ||| rid.setWidth 10⟩
  | .setReport rid => ⟨false, 0x300#10 ||| rid.setWidth 10⟩
  | .reset         => ⟨true, 0x000#10⟩

end Sys2Proof
end

