-- ==== Sys2Proof/Machine/Params.lean ====
section
/-! DEFINITION. The parameter table of 00_scope.md R4: every row but `VARIANT` and `REPORT_ID_GAMEPAD` follows
from the variant. -/

namespace Sys2Proof.Machine

/-- `N_REG`, the regular buttons. -/
def nReg : Variant → Nat
  | .v21 => 6
  | .v6  => 6

/-- `N_EBTN`, the encoder-press buttons. -/
def nEbtn : Variant → Nat
  | .v21 => 5
  | .v6  => 0

/-- `N_ENC`, the quadrature encoders. -/
def nEnc : Variant → Nat
  | .v21 => 5
  | .v6  => 0

/-- `W`, the width of the ButtonVector: `N_REG + N_EBTN + 2*N_ENC`. -/
def width (v : Variant) : Nat := nReg v + nEbtn v + 2 * nEnc v

/-- `N_LINES`, the input lines: `N_REG + N_EBTN + 2*N_ENC`. -/
def nLines (v : Variant) : Nat := nReg v + nEbtn v + 2 * nEnc v

/-- `L`, the payload length in bytes. V6's 4 is the spec's decision D7 (90_conflicts.md C2; log 11). -/
def payloadLen : Variant → Nat
  | .v21 => 3
  | .v6  => 4

/-- `T_TICK`, the nominal period of TICK in milliseconds: timing only, no rule depends on it
(70_reset_and_hazards.md R117). -/
def tickPeriodMs : Variant → Nat
  | .v21 => 10
  | .v6  => 10

end Sys2Proof.Machine
end

