-- ==== Sys2Proof/Machine/State.lean ====
section
/-! DEFINITION. The block's state, and around it what the host's form of a step has no argument for: the
configuration, the caller's inputs still to come, its output buffer and the results so far (logs 1 and 2). -/

namespace Sys2Proof.Machine

/-- The caller's output buffer, the only byte-indexed object the block touches (20_memory.md R32), as (index,
byte) pairs. An unlisted index holds a byte the model does not know (log 7). -/
abbrev Memory := List Host.Cell

/-- The canonical form: indices strictly rising. (An unlisted index has no byte, so no entry can equal one.) -/
abbrev Memory.wf (m : Memory) : Prop := m.Pairwise fun x y => x.1 < y.1

/-- The result of one command (30_encoding.md R51). -/
inductive Output where
  /-- NOP, SET_REPORT and RESET give no output. -/
  | none
  /-- TICK. `ridOut` is always `REPORT_ID_GAMEPAD`. -/
  | tick (vec : ButtonVec) (payload : List Byte) (ridOut : ReportId) (active : Bool)
  /-- GET_REPORT. `len` is 0 or L; `vec` and the `BufWrite`s are present exactly when it is L. -/
  | report (len : Nat) (vec : Option ButtonVec) (writes : List Host.Cell)
  deriving DecidableEq, Repr

/-- The block's whole persistent state (10_state.md R17, R30): `prev[k]` for k in 0..N_ENC-1. -/
structure BlockState where
  prev : List Level
  deriving DecidableEq, Repr

/-- The faults of a step: none. No command traps, faults or reports an error (60_exceptions.md R89), so nothing
raises one. -/
inductive Fault
  deriving DecidableEq, Repr

/-- The refusals of a step. -/
inductive Refusal where
  /-- An arm of `exec` without a meaning; no arm raises it in this model. Safe: the machine stops. -/
  | notModelled (mnemonic : String)
  deriving DecidableEq, Repr

/-- The machine of the host's interface. Only `block` is state of the block (10_state.md R30); R25 forbids
taking the rest for it. -/
structure State where
  /-- The configuration, fixed for the block's lifetime (00_scope.md R5; log 2). -/
  cfg     : Config
  /-- The block's state. -/
  block   : BlockState
  /-- The snapshot given with the command being executed (30_encoding.md R47). -/
  lines   : Snapshot
  /-- The caller's (rst, word, S) triples still to come, the next first (42_commands.md R87). -/
  queue   : List Input
  /-- The caller's output buffer (20_memory.md R32). -/
  buf     : Memory
  /-- The results of the steps so far, the oldest first (42_commands.md R87). -/
  outputs : List Output
  deriving DecidableEq, Repr

/-- Every line of the variant unasserted. -/
def releasedLines (v : Variant) : Snapshot :=
  { btn  := List.replicate (nReg v) false
    ebtn := List.replicate (nEbtn v) false
    a    := List.replicate (nEnc v) false
    b    := List.replicate (nEnc v) false }

/-- The power-on state of the block: `prev[k] = 00` for every k (70_reset_and_hazards.md R106). -/
def BlockState.powerOn (v : Variant) : BlockState := ⟨List.replicate (nEnc v) 0b00#2⟩

/-- The machine of a configuration right after power-on, no command given yet. -/
def State.resetOf (cfg : Config) : State :=
  { cfg     := cfg
    block   := BlockState.powerOn cfg.variant
    lines   := releasedLines cfg.variant
    queue   := []
    buf     := []
    outputs := [] }

/-- The machine right after reset: variant V21 (log 3), the report ID left open (log 4). -/
def State.reset : State := State.resetOf ⟨.v21, Config.openReportId⟩

end Sys2Proof.Machine
end

