-- ==== Sys2Proof/Machine/Ops.lean ====
section
/-! DEFINITION. The named operations over registers, the caller's buffer and the block's ports. There is no
operation that takes an exception, and none that returns from one: the block has neither trap entry nor trap
return (60_exceptions.md R89, R93). -/

namespace Sys2Proof.Machine

/-- Register read `prev[k]` (00_scope.md R11). -/
def BlockState.prevAt (st : BlockState) (k : Nat) : Level := st.prev.getD k 0b00#2

/-- Byte `i` of the caller's buffer, or `none` where the model does not know it. -/
def Memory.read : Memory → Nat → Option Byte
  | [], _ => none
  | (a, x) :: m, i => if a = i then some x else Memory.read m i

/-- `BufWrite(i, v)` (00_scope.md R11), keeping the canonical form. -/
def Memory.write : Memory → Nat → Byte → Memory
  | [], i, x => [(i, x)]
  | (a, y) :: m, i, x =>
    if i < a then (i, x) :: (a, y) :: m
    else if i = a then (i, x) :: m
    else (a, y) :: Memory.write m i x

/-- `BufWrite`s in their order. -/
def Memory.writeAll (m : Memory) (ws : List Host.Cell) : Memory :=
  ws.foldl (fun m w => Memory.write m w.1 w.2) m

/-- The `BufWrite`s of a payload, from byte 0 upward (20_memory.md R37, 30_encoding.md R51). -/
def bufWrites (bytes : List Byte) : List Host.Cell :=
  (List.range bytes.length).map fun i => (i, bytes.getD i 0)

/-- The `BufWrite`s a result carries: only GET_REPORT's does (20_memory.md R32). -/
def Output.writes : Output → List Host.Cell
  | .none => []
  | .tick _ _ _ _ => []
  | .report _ _ ws => ws

/-- How every command ends: the block's next state is committed, the result is handed out and its `BufWrite`s
land in the caller's buffer, all in the one step (20_memory.md R41). -/
def State.respond (s : State) (r : BlockState × Output) : State :=
  { s with
    block   := r.1
    outputs := s.outputs ++ [r.2]
    buf     := s.buf.writeAll r.2.writes }

/-- The inputs of one step on the block's ports: the snapshot on the lines, the rest still to come. -/
def State.present (s : State) (snap : Snapshot) (rest : List Input) : State :=
  { s with lines := snap, queue := rest }

/-- What the next step has to execute, and on which state; `none` where the caller has no further command. -/
def State.fetch (s : State) : Option (Instr × State) :=
  match s.queue with
  | [] => none
  | inp :: rest => some (inp.command, s.present inp.snap rest)

/-- `p` in the place of the port values the next step takes; the snapshot given with them stays, and is what is
on the lines where the caller has no further command (log 5). -/
def State.placePort (s : State) (p : PortWord) : State :=
  match s.queue with
  | [] => { s with queue := [⟨p, s.lines⟩] }
  | inp :: rest => { s with queue := ⟨p, inp.snap⟩ :: rest }

end Sys2Proof.Machine
end

