-- ==== Sys2Proof/Machine/Operands.lean ====
section
/-! DEFINITION. The operand forms: the fields of the input snapshot, the decoder's operand `cur[k]`, and the
boundary at which line levels become logical values. -/

namespace Sys2Proof.Machine

/-- Line `i` of a group of the snapshot (30_encoding.md R47). A well-formed snapshot has a value at every index
its variant reads; beyond them this reads unasserted (log 17). -/
def lineAt (group : List Bool) (i : Nat) : Bool := group.getD i false

/-- `{a, b} = (a << 1) | b`: the A line is the more significant bit (30_encoding.md R50, 00_scope.md R9). -/
def concatAB (a b : Bool) : Level := BitVec.ofBool a ++ BitVec.ofBool b

/-- `cur[k] = {S.a[k], S.b[k]}` (30_encoding.md R50, 40_quadrature_decoder.md R57). -/
def cur (S : Snapshot) (k : Nat) : Level := concatAB (lineAt S.a k) (lineAt S.b k)

/-- The sampler's contract at the block's boundary: a line is asserted when it is electrically LOW. Applied to
the electrical levels of every line (`true` = HIGH) it gives the logical snapshot
(40_quadrature_decoder.md R56; log 13). -/
def sampleLevels (levels : Snapshot) : Snapshot :=
  { btn  := levels.btn.map (!·)
    ebtn := levels.ebtn.map (!·)
    a    := levels.a.map (!·)
    b    := levels.b.map (!·) }

end Sys2Proof.Machine
end

