-- ==== Sys2Proof/Machine/Quadrature.lean ====
section
/-! DEFINITION. The quadrature_decoder: CLASSIFY, DECODE_STEP and DECODE_PEEK (40_quadrature_decoder.md). -/

namespace Sys2Proof.Machine

/-- A classifier result (00_scope.md R12). -/
inductive Pulse where
  | none
  | cw
  | ccw
  deriving DecidableEq, Repr

/-- The source's "CW set" (40_quadrature_decoder.md R58). -/
def cwSet : List (Level × Level) :=
  [(0b00#2, 0b01#2), (0b01#2, 0b11#2), (0b11#2, 0b10#2), (0b10#2, 0b00#2)]

/-- The source's "CCW set" (40_quadrature_decoder.md R58). -/
def ccwSet : List (Level × Level) :=
  [(0b00#2, 0b10#2), (0b10#2, 0b11#2), (0b11#2, 0b01#2), (0b01#2, 0b00#2)]

/-- CLASSIFY(p, c), previous p and current c (40_quadrature_decoder.md R58). A change of both bits gives no
pulse, by policy (R65). -/
def classify (p c : Level) : Pulse :=
  if c = p then .none
  else if (p, c) ∈ cwSet then .cw
  else if (p, c) ∈ ccwSet then .ccw
  else .none

/-- DECODE_STEP on one register: the pulse, from the value before the commit, and the register's next value
(40_quadrature_decoder.md R60). -/
def decodeStep (p c : Level) : Pulse × Level :=
  (classify p c, if c ≠ p then c else p)

/-- DECODE_PEEK on one register: the pulse alone (40_quadrature_decoder.md R62). -/
def decodePeek (p c : Level) : Pulse := classify p c

/-- DECODE_STEP for every encoder, each from its own register and lines (00_scope.md R13, 10_state.md R31). -/
def decodeAll (v : Variant) (st : BlockState) (S : Snapshot) : List (Pulse × Level) :=
  (List.range (nEnc v)).map fun k => decodeStep (st.prevAt k) (cur S k)

/-- DECODE_PEEK for every encoder. -/
def peekAll (v : Variant) (st : BlockState) (S : Snapshot) : List Pulse :=
  (List.range (nEnc v)).map fun k => decodePeek (st.prevAt k) (cur S k)

end Sys2Proof.Machine
end

