-- ==== Sys2Proof/Machine/ButtonVector.lean ====
section
/-! DEFINITION. The button_vector_encoder: PACK, SERIALIZE and BUILD (41_button_vector_encoder.md). ACTIVE is in
Flags.lean. -/

namespace Sys2Proof.Machine

/-- The vector's bits from bit 0 up: "regular buttons, then encoder-press buttons, then encoder rotation pulses
(two bits — CW, CCW — per encoder)" (41_button_vector_encoder.md R68). -/
def packBits (v : Variant) (S : Snapshot) (pulses : List Pulse) : List Bool :=
  (List.range (nReg v)).map (lineAt S.btn)
    ++ (List.range (nEbtn v)).map (lineAt S.ebtn)
    ++ (List.range (nEnc v)).flatMap fun k =>
        [pulses.getD k .none == .cw, pulses.getD k .none == .ccw]

/-- PACK(S, pulse) (41_button_vector_encoder.md R68). -/
def pack (v : Variant) (S : Snapshot) (pulses : List Pulse) : ButtonVec :=
  (BitVec.ofBoolListLE (packBits v S pulses)).setWidth 21

/-- Bit `i` of the payload: vector bit `i` below W, 0 at and above it (41_button_vector_encoder.md R73, R74). -/
def payloadBit (v : Variant) (vec : ButtonVec) (i : Nat) : Bool :=
  decide (i < width v) && vec.getLsbD i

/-- Byte `j` of the payload: its bit `b` is payload bit `8*j + b` (20_memory.md R34). -/
def payloadByte (v : Variant) (vec : ButtonVec) (j : Nat) : Byte :=
  (BitVec.ofBoolListLE ((List.range 8).map fun b => payloadBit v vec (8 * j + b))).setWidth 8

/-- SERIALIZE(vec) (41_button_vector_encoder.md R74). -/
def serialize (v : Variant) (vec : ButtonVec) : List Byte :=
  (List.range (payloadLen v)).map (payloadByte v vec)

/-- BUILD(rid, vec), the report-ID filter: a length and the bytes (41_button_vector_encoder.md R78). -/
def build (cfg : Config) (rid : ReportId) (vec : ButtonVec) : Nat × List Byte :=
  if rid = cfg.reportId then (payloadLen cfg.variant, serialize cfg.variant vec)
  else (0, [])

end Sys2Proof.Machine
end

