-- ==== Sys2Proof/Machine/Flags.lean ====
section
/-! DEFINITION. The block holds no flags or condition codes (10_state.md R21). The one flag-like result is an
output of TICK. -/

namespace Sys2Proof.Machine

/-- ACTIVE: whether any bit of the vector is 1 (41_button_vector_encoder.md R77). -/
def active (vec : ButtonVec) : Bool := vec != 0

end Sys2Proof.Machine
end

