-- ==== Sys2Proof/Machine/Commands.lean ====
section
/-! DEFINITION. The commands (42_commands.md R82 to R85, 70_reset_and_hazards.md R105): for each, what the block
does, `BlockState → ... → BlockState × Output` as the spec writes it, and its meaning on the machine's state. -/

namespace Sys2Proof.Machine

/-- NOP(st) (42_commands.md R82). -/
def nopCmd (st : BlockState) : BlockState × Output := (st, .none)

/-- TICK(st, S) (42_commands.md R83): the outputs come from `prev` before the commit. -/
def tickCmd (cfg : Config) (st : BlockState) (S : Snapshot) : BlockState × Output :=
  let steps := decodeAll cfg.variant st S
  let vec := pack cfg.variant S (steps.map Prod.fst)
  (⟨steps.map Prod.snd⟩, .tick vec (serialize cfg.variant vec) cfg.reportId (active vec))

/-- GET_REPORT(st, rid, S) (42_commands.md R84): the ID check comes first, and on a mismatch the snapshot is not
read (60_exceptions.md R96). Report type and requested length are no inputs (log 10). -/
def getReportCmd (cfg : Config) (st : BlockState) (rid : ReportId) (S : Snapshot) : BlockState × Output :=
  if rid ≠ cfg.reportId then (st, .report 0 none [])
  else
    let vec := pack cfg.variant S (peekAll cfg.variant st S)
    let built := build cfg rid vec
    (st, .report built.1 (some vec) (bufWrites built.2))

/-- SET_REPORT(st, rid) (42_commands.md R85). -/
def setReportCmd (st : BlockState) (_rid : ReportId) : BlockState × Output := (st, .none)

/-- RESET(st) (70_reset_and_hazards.md R105). -/
def resetCmd (cfg : Config) (_st : BlockState) : BlockState × Output :=
  (⟨(List.range (nEnc cfg.variant)).map fun _ => 0b00#2⟩, .none)

/-- The meaning of NOP. -/
def execNop (s : State) : Host.Outcome State Fault Refusal :=
  .next (s.respond (nopCmd s.block))

/-- The meaning of TICK. -/
def execTick (s : State) : Host.Outcome State Fault Refusal :=
  .next (s.respond (tickCmd s.cfg s.block s.lines))

/-- The meaning of GET_REPORT. -/
def execGetReport (rid : ReportId) (s : State) : Host.Outcome State Fault Refusal :=
  .next (s.respond (getReportCmd s.cfg s.block rid s.lines))

/-- The meaning of SET_REPORT. -/
def execSetReport (rid : ReportId) (s : State) : Host.Outcome State Fault Refusal :=
  .next (s.respond (setReportCmd s.block rid))

/-- The meaning of RESET. -/
def execReset (s : State) : Host.Outcome State Fault Refusal :=
  .next (s.respond (resetCmd s.cfg s.block))

end Sys2Proof.Machine
end

