-- ==== Sys2Proof/Machine/Dispatch.lean ====
section
/-! DEFINITION. Dispatch: one arm per command (42_commands.md R81). -/

namespace Sys2Proof.Machine

def exec (i : Instr) (s : State) : Host.Outcome State Fault Refusal :=
  match i with
  | .nop => Sys2Proof.Machine.execNop s
  | .tick => Sys2Proof.Machine.execTick s
  | .getReport rid => Sys2Proof.Machine.execGetReport rid s
  | .setReport rid => Sys2Proof.Machine.execSetReport rid s
  | .reset => Sys2Proof.Machine.execReset s

end Sys2Proof.Machine
end

