-- ==== Sys2Proof/Machine/Step.lean ====
section
/-! DEFINITION. One step of the machine, and the placing of one command where the next step takes it. -/

namespace Sys2Proof.Machine

/-- One step: the caller's next command is executed on the snapshot it comes with (42_commands.md R81). Where
the caller has no further command the block is idle and nothing changes (log 6). -/
def step (s : State) : Host.Outcome State Fault Refusal :=
  match s.fetch with
  | none => .next s
  | some (i, s') => exec i s'

/-- `s` with the instruction whose table bits are `w` in the place the next step takes its command from; `s`
itself where the bits are none (log 5). -/
def State.withFetchWord (s : State) (nbits w : Nat) : State :=
  match portOfBits? nbits w with
  | none   => s
  | some p => s.placePort p

end Sys2Proof.Machine
end

