-- ==== Sys2Proof/Machine/Reference.lean ====
section
/-! DEFINITION. The spec's own functions of one step and of a run (42_commands.md R81, R87), written from its
pseudocode and independent of Decode.lean, Dispatch.lean and Step.lean; a statement compares the machine to them. -/

namespace Sys2Proof.Machine

/-- `step(cfg, st, rst, word, S)` (42_commands.md R81). -/
def blockStep (cfg : Config) (st : BlockState) (rst : Bool) (word : CmdWord) (S : Snapshot) :
    BlockState × Output :=
  if rst then resetCmd cfg st
  else match word.getLsbD 9, word.getLsbD 8 with
    | false, false => nopCmd st
    | false, true  => tickCmd cfg st S
    | true,  false => getReportCmd cfg st (word.setWidth 8) S
    | true,  true  => setReportCmd st (word.setWidth 8)

/-- The left fold of `blockStep` over the caller's triples: the final state and the per-step outputs, oldest
first (42_commands.md R87). -/
def blockRun (cfg : Config) (st : BlockState) : List Input → BlockState × List Output
  | [] => (st, [])
  | inp :: rest =>
    let r := blockStep cfg st inp.port.rst inp.port.word inp.snap
    let run := blockRun cfg r.1 rest
    (run.1, r.2 :: run.2)

end Sys2Proof.Machine
end

