-- ==== Sys2Proof/WellFormed.lean ====
section
/-! DEFINITION. Which terms stand for something the block can be given. -/

namespace Sys2Proof

open Sys2Proof.Machine

/-- Every command is well-formed: no encoding is reserved or illegal, and `rid` has its 8 bits by its type
(30_encoding.md R48, R52). -/
def Instr.wellFormed : Instr → Bool
  | .nop         => true
  | .tick        => true
  | .getReport _ => true
  | .setReport _ => true
  | .reset       => true

/-- A snapshot of a variant has exactly one value per configured line (30_encoding.md R47, R49). -/
def Snapshot.wellFormed (v : Variant) (S : Snapshot) : Bool :=
  S.btn.length == nReg v && S.ebtn.length == nEbtn v && S.a.length == nEnc v && S.b.length == nEnc v

/-- A step's inputs are well-formed when their snapshot is: every reset strobe and word is admitted. -/
def Input.wellFormed (v : Variant) (inp : Input) : Bool := inp.snap.wellFormed v

end Sys2Proof
end

