-- ==== Sys2Proof/Safety.lean ====
section
/-! DEFINITION. The terms the claims are stated in: the shape of a state, what a legal result is, where a line
or a pulse stands in the vector, and runs. -/

namespace Sys2Proof.Machine

/-! ### The shape of a state -/

/-- The shape the variant fixes: one register per encoder (10_state.md R17), one value per configured line in
every snapshot (30_encoding.md R47), the buffer in its canonical form. -/
abbrev State.wf (s : State) : Prop :=
  s.block.prev.length = nEnc s.cfg.variant
    ∧ s.lines.wellFormed s.cfg.variant = true
    ∧ (∀ inp ∈ s.queue, inp.wellFormed s.cfg.variant = true)
    ∧ s.buf.wf

/-! ### Where things stand in the vector -/

/-- What writes a bit of the vector: a line or a pulse (41_button_vector_encoder.md R68). -/
inductive Source where
  | btn (i : Nat)
  | ebtn (j : Nat)
  | cw (k : Nat)
  | ccw (k : Nat)
  deriving DecidableEq, Repr

/-- The sources a variant has. -/
def Source.configured (v : Variant) : Source → Prop
  | .btn i  => i < nReg v
  | .ebtn j => j < nEbtn v
  | .cw k   => k < nEnc v
  | .ccw k  => k < nEnc v

/-- The bit position of a source (41_button_vector_encoder.md R68). -/
def Source.position (v : Variant) : Source → Nat
  | .btn i  => i
  | .ebtn j => nReg v + j
  | .cw k   => nReg v + nEbtn v + 2 * k
  | .ccw k  => nReg v + nEbtn v + 2 * k + 1

/-- The value of a source, for a snapshot and a pulse per encoder. -/
def Source.value (S : Snapshot) (pulse : Nat → Pulse) : Source → Bool
  | .btn i  => lineAt S.btn i
  | .ebtn j => lineAt S.ebtn j
  | .cw k   => pulse k == .cw
  | .ccw k  => pulse k == .ccw

/-- `vec` is the vector of the snapshot and the pulses: every source's value at its position, 0 at and above W. -/
def VectorOf (v : Variant) (S : Snapshot) (pulse : Nat → Pulse) (vec : ButtonVec) : Prop :=
  (∀ src : Source, src.configured v → vec.getLsbD (src.position v) = src.value S pulse)
    ∧ ∀ i, width v ≤ i → vec.getLsbD i = false

/-- `bytes` is the payload of `vec`: L bytes, vector bit `i` at bit `i % 8` of byte `i / 8`, and 0 in every bit
position at and above W (20_memory.md R34, 41_button_vector_encoder.md R73). -/
def PayloadOf (v : Variant) (vec : ButtonVec) (bytes : List Byte) : Prop :=
  bytes.length = payloadLen v
    ∧ (∀ i, i < width v → (bytes.getD (i / 8) 0).getLsbD (i % 8) = vec.getLsbD i)
    ∧ ∀ i, width v ≤ i → i < 8 * payloadLen v → (bytes.getD (i / 8) 0).getLsbD (i % 8) = false

/-- The pulse the decoder reads for encoder `k` of a state's block on a snapshot. -/
def pulseOf (st : BlockState) (S : Snapshot) (k : Nat) : Pulse := classify (st.prevAt k) (cur S k)

/-! ### Legal results -/

/-- A vector no bit of which stands at or above W, and in which no encoder has both its bits set
(41_button_vector_encoder.md R73, 40_quadrature_decoder.md R63). -/
def LegalVector (v : Variant) (vec : ButtonVec) : Prop :=
  (∀ i, width v ≤ i → vec.getLsbD i = false)
    ∧ ∀ k, k < nEnc v →
        ¬ (vec.getLsbD (Source.position v (.cw k)) = true ∧ vec.getLsbD (Source.position v (.ccw k)) = true)

/-- The results the block can hand out (30_encoding.md R51). -/
def Output.legal (cfg : Config) : Output → Prop
  | .none => True
  | .tick vec payload ridOut act =>
    LegalVector cfg.variant vec ∧ PayloadOf cfg.variant vec payload ∧ ridOut = cfg.reportId
      ∧ (act = true ↔ ∃ i, vec.getLsbD i = true)
  | .report len vec ws =>
    (len = 0 ∧ vec = Option.none ∧ ws = [])
      ∨ (len = payloadLen cfg.variant ∧ ∃ u bytes, vec = some u ∧ LegalVector cfg.variant u
          ∧ PayloadOf cfg.variant u bytes ∧ ws = bufWrites bytes)

/-- Every result so far is one the block can hand out. -/
def State.resultsLegal (s : State) : Prop := ∀ o ∈ s.outputs, o.legal s.cfg

/-! ### Reading results -/

/-- The vector of a result; 0 where it has none. -/
def Output.vector : Output → ButtonVec
  | .none => 0
  | .tick vec _ _ _ => vec
  | .report _ vec _ => vec.getD 0

/-- The two pulse bits of encoder `k` in a result's vector, CW first. -/
def Output.pulseBits (v : Variant) (k : Nat) (o : Output) : Bool × Bool :=
  (o.vector.getLsbD (Source.position v (.cw k)), o.vector.getLsbD (Source.position v (.ccw k)))

/-- Whether a result is a TICK's. -/
def Output.isTick : Output → Bool
  | .none => false
  | .tick _ _ _ _ => true
  | .report _ _ _ => false

/-! ### Runs -/

/-- The commands between which TICKs see no difference: NOP, GET_REPORT and SET_REPORT (42_commands.md R88). -/
def quiet : Instr → Bool
  | .nop         => true
  | .tick        => false
  | .getReport _ => true
  | .setReport _ => true
  | .reset       => false

/-- The run of all the caller's commands. -/
def runAll (s : State) : Host.Outcome State Fault Refusal := Host.Core.run Sys2Proof.core s.queue.length s

/-! ### Rotation -/

/-- One Gray-code step in the CW order 00, 01, 11, 10, 00 (40_quadrature_decoder.md R58, R67). -/
def cwNext (p : Level) : Level :=
  if p = 0b00#2 then 0b01#2 else if p = 0b01#2 then 0b11#2 else if p = 0b11#2 then 0b10#2 else 0b00#2

/-- One Gray-code step in the CCW order 00, 10, 11, 01, 00. -/
def ccwNext (p : Level) : Level :=
  if p = 0b00#2 then 0b10#2 else if p = 0b10#2 then 0b11#2 else if p = 0b11#2 then 0b01#2 else 0b00#2

/-- The motion of an encoder between two TICKs when it is at most one step. -/
inductive Move where
  | stay
  | cw
  | ccw
  deriving DecidableEq, Repr

/-- Where a motion leads. -/
def Move.apply (p : Level) : Move → Level
  | .stay => p
  | .cw   => cwNext p
  | .ccw  => ccwNext p

/-- The levels an encoder passes through, the start left out. -/
def trail (p : Level) : List Move → List Level
  | [] => []
  | m :: ms => m.apply p :: trail (m.apply p) ms

end Sys2Proof.Machine
end

