-- ==== Sys2Proof/Certificates/Slice0/Obligations.lean ====
section
/-! DEFINITION. The statements for the provers, from the spec's numbered rules. A statement about a result says
`∃ t, exec ... = .next t`, so that it says where the command completes as well. -/

open Sys2Proof Sys2Proof.Machine

/-! ### Encoding -/

/-- Every well-formed command is decoded back from the port values the assembler writes for it (30_encoding.md
R44 to R46, R55). The clause on `decodeTableWord` is the model's choice (log 15): the spec gives the formats `CMD`
and `RST` no common numbering, and the model reads a row of 16 bits as a command word and one of 8 bits as the
reset port with bit 0 the strobe. -/
def Obligations.EveryCommandDecodesFromItsEncoding : Prop :=
  ∀ i : Instr, i.wellFormed = true →
    decodePort (encode i) = i
      ∧ (if (encode i).rst then decodeTableWord 8 1 else decodeTableWord 16 (encode i).word.toNat) = some i

/-- 30_encoding.md R52. All command words decode to one of the four commands, none stops the machine, and bits
7:0 of a NOP or TICK word are ignored and assembled as 0x00. -/
def Obligations.EveryCommandWordIsACommand : Prop :=
  ∀ w : CmdWord,
    (decodeWord w = .nop ∨ decodeWord w = .tick ∨ (∃ rid, decodeWord w = .getReport rid)
      ∨ ∃ rid, decodeWord w = .setReport rid)
    ∧ (∀ s : State, ∃ t, exec (decodeWord w) s = .next t)
    ∧ (∀ w' : CmdWord, w'.getLsbD 9 = w.getLsbD 9 → w'.getLsbD 8 = w.getLsbD 8 → w.getLsbD 9 = false →
        decodeWord w' = decodeWord w)
    ∧ (encode (decodeWord w)).word = if w.getLsbD 9 then w else w &&& 0x300#10

/-- Words written out from 30_encoding.md R55 (`0x000`, `0x100`, `0x200 | rid`, `0x300 | rid`) decode to the
commands they are written for. A sanity statement. -/
def Obligations.WordsOfTheSpecDecode : Prop :=
  decodeWord 0b0000000000#10 = .nop
    ∧ decodeWord 0b0011111111#10 = .nop
    ∧ decodeWord 0b0100000000#10 = .tick
    ∧ decodeWord 0b0111111111#10 = .tick
    ∧ decodeWord 0b1000000101#10 = .getReport 0x05#8
    ∧ decodeWord 0b1010000000#10 = .getReport 0x80#8
    ∧ decodeWord 0b1100000000#10 = .setReport 0x00#8
    ∧ decodeWord 0b1100000101#10 = .setReport 0x05#8
    ∧ decodePort ⟨true, 0b0100000000#10⟩ = .reset

/-- 30_encoding.md R48. NOP, TICK and SET_REPORT ignore `rid`; GET_REPORT compares it, all 8 bits, with the
configured report ID. -/
def Obligations.ReportIdOperandCountsForGetReportOnly : Prop :=
  (∀ (s : State) (w w' : CmdWord), w'.getLsbD 9 = w.getLsbD 9 → w'.getLsbD 8 = w.getLsbD 8 →
      (w.getLsbD 9 = false ∨ w.getLsbD 8 = true) → exec (decodeWord w') s = exec (decodeWord w) s)
  ∧ ∀ (s : State) (rid : ReportId), ∃ t len vec ws,
      exec (.getReport rid) s = .next t
        ∧ t.outputs = s.outputs ++ [.report len vec ws]
        ∧ (len = payloadLen s.cfg.variant ↔ rid = s.cfg.reportId)
        ∧ (len = 0 ↔ rid ≠ s.cfg.reportId)

/-! ### Steps and runs -/

/-- 42_commands.md R81. A step on which the caller gives `(rst, word, S)` runs RESET where `rst = 1`, and
otherwise the command of the word's `cmd` field, on the state with S on the lines and the rest of the caller's
commands still to come; nothing is wrapped around the command, and the state it leaves is the one the next step
reads. -/
def Obligations.StepRunsTheDecodedCommand : Prop :=
  ∀ (s : State) (rst : Bool) (word : CmdWord) (S : Snapshot) (rest : List Input),
    s.queue = ⟨⟨rst, word⟩, S⟩ :: rest →
    step s = exec (decodePort ⟨rst, word⟩) { s with lines := S, queue := rest }
      ∧ (∀ (n : Nat) (t : State), step s = .next t →
          Host.Core.run Sys2Proof.core (n + 1) s = Host.Core.run Sys2Proof.core n t)
      ∧ decodePort ⟨rst, word⟩ =
        if rst then .reset
        else if word.getLsbD 9 = false ∧ word.getLsbD 8 = false then .nop
        else if word.getLsbD 9 = false ∧ word.getLsbD 8 = true then .tick
        else if word.getLsbD 9 = true ∧ word.getLsbD 8 = false then .getReport (word.setWidth 8)
        else .setReport (word.setWidth 8)

/-- The model's choice (log 6): where the caller gives no further command, a step changes nothing. -/
def Obligations.StepWithoutACommandIsIdle : Prop :=
  ∀ s : State, s.queue = [] → step s = .next s

/-- The model's choice (logs 5 and 15): a command word or reset strobe placed by `withFetchWord` is what the
next step runs, on the snapshot that was to come with the command whose place it takes, or on the lines as they
stand where none was to come. -/
def Obligations.PlacedCommandIsRunNext : Prop :=
  ∀ (s : State) (w : Nat),
    (w < 1024 → step (s.withFetchWord 16 w) =
      exec (decodeWord (BitVec.ofNat 10 w))
        { s with lines := (s.queue.head?.map Input.snap).getD s.lines, queue := s.queue.tail })
    ∧ step (s.withFetchWord 8 1) =
      exec .reset { s with lines := (s.queue.head?.map Input.snap).getD s.lines, queue := s.queue.tail }

/-- 60_exceptions.md R89. No step faults or is refused, however long the run, whatever the words, snapshots and
state. -/
def Obligations.EveryRunAnswersANextState : Prop :=
  ∀ (n : Nat) (s : State), ∃ t, Host.Core.run Sys2Proof.core n s = .next t

/-- The machine's run of the caller's commands is the left fold of the spec's own step function: its final
registers and its per-step results are the fold's (42_commands.md R87; `blockStep` is R81's pseudocode). -/
def Obligations.RunIsTheFoldOfTheSpecStep : Prop :=
  ∀ s : State, ∃ t, runAll s = .next t
    ∧ t.block = (blockRun s.cfg s.block s.queue).1
    ∧ t.outputs = s.outputs ++ (blockRun s.cfg s.block s.queue).2
    ∧ t.queue = [] ∧ t.cfg = s.cfg

/-! ### Invariants -/

/-- Right after power-on, in every configuration, the state has its shape, no result has been given, and every
register is `00` (70_reset_and_hazards.md R106). -/
def Obligations.PowerOnStateMeetsTheInvariants : Prop :=
  ∀ cfg : Config, (State.resetOf cfg).wf ∧ (State.resetOf cfg).resultsLegal
    ∧ (State.resetOf cfg).block.prev.length = nEnc cfg.variant
    ∧ ∀ k, (State.resetOf cfg).block.prevAt k = 0b00#2

/-- Every step keeps the shape of the state: one register per encoder of the variant, snapshots with one value
per line, the caller's buffer in its canonical form. -/
def Obligations.EveryStepKeepsTheShape : Prop :=
  ∀ s t : State, s.wf → step s = .next t → t.wf

/-- Every step keeps every result legal: vectors fit in W bits and never hold both pulses of an encoder, a TICK
carries the payload of its vector, the configured report ID and the right `active`, a GET_REPORT carries either
nothing or the whole payload of its vector. -/
def Obligations.EveryStepKeepsResultsLegal : Prop :=
  ∀ s t : State, s.resultsLegal → step s = .next t → t.resultsLegal

/-- 00_scope.md R5. No run of any length changes the configuration. -/
def Obligations.NoRunChangesTheConfiguration : Prop :=
  ∀ (n : Nat) (s t : State), Host.Core.run Sys2Proof.core n s = .next t → t.cfg = s.cfg

/-! ### What each command does -/

/-- 42_commands.md R82 and R85. NOP and SET_REPORT complete in every state, give no output and change nothing
else. -/
def Obligations.NopAndSetReportDoNothing : Prop :=
  ∀ (s : State) (i : Instr), (i = .nop ∨ ∃ rid, i = .setReport rid) →
    ∃ t, exec i s = .next t
      ∧ t.outputs = s.outputs ++ [.none]
      ∧ t.block = s.block ∧ (∀ a, t.buf.read a = s.buf.read a)
      ∧ t.cfg = s.cfg ∧ t.lines = s.lines ∧ t.queue = s.queue

/-- 42_commands.md R83. TICK completes in every state: it commits every encoder's level, and gives the vector of
the snapshot and of the pulses classified from the registers before the commit, its payload, the configured
report ID and `active`. Nothing else changes. -/
def Obligations.TickDecodesPacksAndCommits : Prop :=
  ∀ s : State, ∃ t vec payload act,
    exec .tick s = .next t
      ∧ t.outputs = s.outputs ++ [.tick vec payload s.cfg.reportId act]
      ∧ VectorOf s.cfg.variant s.lines (pulseOf s.block s.lines) vec
      ∧ PayloadOf s.cfg.variant vec payload
      ∧ (act = true ↔ ∃ i, vec.getLsbD i = true)
      ∧ t.block.prev.length = nEnc s.cfg.variant
      ∧ (∀ k, k < nEnc s.cfg.variant → t.block.prevAt k = cur s.lines k)
      ∧ (∀ a, t.buf.read a = s.buf.read a)
      ∧ t.cfg = s.cfg ∧ t.lines = s.lines ∧ t.queue = s.queue

/-- 42_commands.md R84. GET_REPORT for the configured ID completes in every state: it gives length L and the
vector of the snapshot and of the pulses classified against the registers, writes the vector's payload to bytes
0..L-1 of the caller's buffer and no other byte, and changes no register. For any other ID it gives length 0 and
changes nothing. Right after a TICK with the same snapshot it shows no pulses. -/
def Obligations.GetReportAnswersWithoutChangingState : Prop :=
  (∀ (s : State) (rid : ReportId), rid = s.cfg.reportId → ∃ t vec bytes,
    exec (.getReport rid) s = .next t
      ∧ t.outputs = s.outputs ++ [.report (payloadLen s.cfg.variant) (some vec)
          ((List.range (payloadLen s.cfg.variant)).map fun a => (a, bytes.getD a 0))]
      ∧ VectorOf s.cfg.variant s.lines (pulseOf s.block s.lines) vec
      ∧ PayloadOf s.cfg.variant vec bytes
      ∧ (∀ a, a < payloadLen s.cfg.variant → t.buf.read a = some (bytes.getD a 0))
      ∧ (∀ a, payloadLen s.cfg.variant ≤ a → t.buf.read a = s.buf.read a)
      ∧ t.block = s.block ∧ t.cfg = s.cfg ∧ t.lines = s.lines ∧ t.queue = s.queue)
  ∧ (∀ (s : State) (rid : ReportId), rid ≠ s.cfg.reportId →
      exec (.getReport rid) s = .next { s with outputs := s.outputs ++ [.report 0 none []] })
  ∧ ∀ s : State, ∃ t u o o', exec .tick s = .next t ∧ exec (.getReport s.cfg.reportId) t = .next u
      ∧ u.outputs = s.outputs ++ [o, o']
      ∧ ∀ k, k < nEnc s.cfg.variant → o'.pulseBits s.cfg.variant k = (false, false)

/-- 60_exceptions.md R90. An unrecognised report ID is a normal outcome: GET_REPORT gives length 0, no vector,
and writes nothing; SET_REPORT does nothing for any ID. -/
def Obligations.UnrecognisedReportIdIsANormalOutcome : Prop :=
  (∀ (s : State) (rid : ReportId), rid ≠ s.cfg.reportId →
    exec (.getReport rid) s = .next { s with outputs := s.outputs ++ [.report 0 none []] })
  ∧ ∀ (s : State) (rid : ReportId),
    exec (.setReport rid) s = .next { s with outputs := s.outputs ++ [.none] }

/-- 70_reset_and_hazards.md R105. RESET completes in every state: every encoder register becomes `00`, no output
is given and nothing else changes; in a V6 state of its shape not even the (absent) registers do. -/
def Obligations.ResetClearsEveryRegister : Prop :=
  ∀ s : State, ∃ t,
    exec .reset s = .next t
      ∧ t.block.prev.length = nEnc s.cfg.variant
      ∧ (∀ k, k < nEnc s.cfg.variant → t.block.prevAt k = 0b00#2)
      ∧ (s.wf → s.cfg.variant = .v6 → t.block = s.block)
      ∧ t.outputs = s.outputs ++ [.none]
      ∧ (∀ a, t.buf.read a = s.buf.read a)
      ∧ t.cfg = s.cfg ∧ t.lines = s.lines ∧ t.queue = s.queue

/-- 70_reset_and_hazards.md R106. RESET leaves the block in its power-on state, every register `00`. -/
def Obligations.ResetGivesThePowerOnState : Prop :=
  ∀ s : State, ∃ t, exec .reset s = .next t
    ∧ t.block = (State.resetOf s.cfg).block
    ∧ ∀ k, (State.resetOf s.cfg).block.prevAt k = 0b00#2

/-- 60_exceptions.md R95. Where `rst = 1` stands beside a command word, RESET is performed and the word is
discarded: the step clears the registers, gives no output, writes no buffer byte, and is the same for every word
and snapshot up to the levels on the lines. -/
def Obligations.ResetDiscardsTheCommandWord : Prop :=
  ∀ (s : State) (word : CmdWord) (S : Snapshot) (rest : List Input),
    s.queue = ⟨⟨true, word⟩, S⟩ :: rest →
    ∃ t, step s = .next t
      ∧ (∀ k, k < nEnc s.cfg.variant → t.block.prevAt k = 0b00#2)
      ∧ t.outputs = s.outputs ++ [.none]
      ∧ t.buf = s.buf
      ∧ ∀ (word' : CmdWord) (S' : Snapshot), ∃ t',
          step { s with queue := ⟨⟨true, word'⟩, S'⟩ :: rest } = .next t'
            ∧ t'.block = t.block ∧ t'.outputs = t.outputs ∧ t'.buf = t.buf ∧ t'.queue = t.queue

/-! ### Frames over all commands -/

/-- 10_state.md R19. TICK reads and writes the registers, GET_REPORT reads and never writes them, RESET clears
them, NOP and SET_REPORT neither read nor write them. -/
def Obligations.AccessRightsToTheRegisters : Prop :=
  ∀ (s : State) (i : Instr), ∃ t o, exec i s = .next t ∧ t.outputs = s.outputs ++ [o]
    ∧ (i = .tick → ∀ k, k < nEnc s.cfg.variant → t.block.prevAt k = cur s.lines k
        ∧ o.pulseBits s.cfg.variant k
          = (pulseOf s.block s.lines k == .cw, pulseOf s.block s.lines k == .ccw))
    ∧ (i = .getReport s.cfg.reportId → t.block = s.block ∧ ∀ k, k < nEnc s.cfg.variant →
        o.pulseBits s.cfg.variant k
          = (pulseOf s.block s.lines k == .cw, pulseOf s.block s.lines k == .ccw))
    ∧ (i = .reset → ∀ k, k < nEnc s.cfg.variant → t.block.prevAt k = 0b00#2)
    ∧ (i ≠ .tick → i ≠ .reset → t.block = s.block)
    ∧ ((i = .nop ∨ ∃ rid, i = .setReport rid) → ∀ st : BlockState, ∃ t',
        exec i { s with block := st } = .next t' ∧ t'.block = st ∧ t'.outputs = t.outputs ∧ t'.buf = t.buf)

/-- 20_memory.md R38. A command writes the whole payload or nothing: after a GET_REPORT for the configured ID
all L bytes of the buffer are known and hold the payload handed out, and no byte beyond L-1 has changed; after
any other command no byte has. -/
def Obligations.WholePayloadOrNothing : Prop :=
  ∀ (s t : State) (i : Instr), exec i s = .next t →
    (i = .getReport s.cfg.reportId → ∃ vec bytes,
      t.outputs = s.outputs ++ [.report (payloadLen s.cfg.variant) (some vec) (bufWrites bytes)]
        ∧ PayloadOf s.cfg.variant vec bytes
        ∧ (∀ a, a < payloadLen s.cfg.variant → t.buf.read a = some (bytes.getD a 0))
        ∧ ∀ a, payloadLen s.cfg.variant ≤ a → t.buf.read a = s.buf.read a)
    ∧ (i ≠ .getReport s.cfg.reportId → ∀ a, t.buf.read a = s.buf.read a)

/-- Every command hands out exactly one result and leaves the configuration, the lines and the caller's further
commands as they are (30_encoding.md R51: every command returns one result). -/
def Obligations.EveryCommandReturnsOneResult : Prop :=
  ∀ (s t : State) (i : Instr), exec i s = .next t →
    (∃ o, t.outputs = s.outputs ++ [o]
      ∧ (o = .none ↔ i = .nop ∨ i = .reset ∨ ∃ rid, i = .setReport rid)
      ∧ (o.isTick = true ↔ i = .tick))
    ∧ t.cfg = s.cfg ∧ t.lines = s.lines ∧ t.queue = s.queue

/-! ### Independence -/

/-- 10_state.md R31. What a command leaves in `prev[k]` depends on encoder k's own register and lines alone: two
states of one configuration that agree on them agree on it after any command. -/
def Obligations.RegistersAreIndependent : Prop :=
  ∀ (s s' : State) (i : Instr) (k : Nat), k < nEnc s.cfg.variant →
    s'.cfg = s.cfg → s'.block.prevAt k = s.block.prevAt k →
    lineAt s'.lines.a k = lineAt s.lines.a k → lineAt s'.lines.b k = lineAt s.lines.b k →
    ∃ t t', exec i s = .next t ∧ exec i s' = .next t' ∧ t'.block.prevAt k = t.block.prevAt k

/-- 42_commands.md R86. What becomes of the outputs and of the caller's buffer never changes block state: runs
that differ in them alone have the same registers and give the same further results. -/
def Obligations.WhatTheCallerDoesWithOutputsNeverMatters : Prop :=
  ∀ (n : Nat) (s : State) (buf : Memory) (outputs : List Output), ∃ t t' outs,
    Host.Core.run Sys2Proof.core n s = .next t
      ∧ Host.Core.run Sys2Proof.core n { s with buf := buf, outputs := outputs } = .next t'
      ∧ t'.block = t.block ∧ t.outputs = s.outputs ++ outs ∧ t'.outputs = outputs ++ outs

/-- 60_exceptions.md R96. On a report-ID mismatch neither the snapshot nor a register is read: the result, the
buffer and the further commands are the same whatever they are, and the registers stay. -/
def Obligations.MismatchReadsNeitherLinesNorRegisters : Prop :=
  ∀ (s : State) (rid : ReportId) (st : BlockState) (S : Snapshot), rid ≠ s.cfg.reportId →
    ∃ t t', exec (.getReport rid) s = .next t
      ∧ exec (.getReport rid) { s with block := st, lines := S } = .next t'
      ∧ t.block = s.block ∧ t'.block = st
      ∧ t'.outputs = t.outputs ∧ t'.buf = t.buf ∧ t'.queue = t.queue

/-- 41_button_vector_encoder.md R70. In V6 bits 0 to 5 of a TICK's or matching GET_REPORT's vector are the regular
buttons in order, there are no press bits and no pulse bits: every command's result depends on the regular
buttons alone, and no result's vector has a bit at or above 6. -/
def Obligations.SixButtonVariantSeesRegularButtonsOnly : Prop :=
  ∀ (s : State) (i : Instr) (st : BlockState) (S : Snapshot), s.cfg.variant = .v6 → S.btn = s.lines.btn →
    ∃ t t' o, exec i s = .next t ∧ exec i { s with block := st, lines := S } = .next t'
      ∧ t.outputs = s.outputs ++ [o] ∧ t'.outputs = s.outputs ++ [o]
      ∧ (i = .tick ∨ i = .getReport s.cfg.reportId →
          ∀ j, j < 6 → o.vector.getLsbD j = lineAt s.lines.btn j)
      ∧ ∀ j, 6 ≤ j → o.vector.getLsbD j = false

/-! ### The vector and the payload -/

/-- 41_button_vector_encoder.md R68 and R71. PACK gives every configured line and pulse its bit and sets no
bit at or above W, and in both variants the positions cover 0..W-1 exactly once. -/
def Obligations.PackGivesEverySourceOneBit : Prop :=
  ∀ v : Variant,
    (∀ (S : Snapshot) (pulses : List Pulse) (src : Source), src.configured v →
      (pack v S pulses).getLsbD (src.position v) = src.value S (fun k => pulses.getD k .none))
    ∧ (∀ (S : Snapshot) (pulses : List Pulse) (i : Nat), width v ≤ i → (pack v S pulses).getLsbD i = false)
    ∧ (∀ src : Source, src.configured v → src.position v < width v)
    ∧ ∀ i, i < width v → ∃! src : Source, src.configured v ∧ src.position v = i

/-- 41_button_vector_encoder.md R69. The bit layout of V21, bit by bit, in the vector a TICK gives. -/
def Obligations.BitLayoutOfTheTwentyOneButtonVariant : Prop :=
  ∀ s : State, s.cfg.variant = .v21 → ∃ t vec payload act,
    exec .tick s = .next t ∧ t.outputs = s.outputs ++ [.tick vec payload s.cfg.reportId act]
      ∧ (∀ i, i < 6 → vec.getLsbD i = lineAt s.lines.btn i)
      ∧ (∀ j, j < 5 → vec.getLsbD (6 + j) = lineAt s.lines.ebtn j)
      ∧ ∀ k, k < 5 → vec.getLsbD (11 + 2 * k) = (pulseOf s.block s.lines k == .cw)
          ∧ vec.getLsbD (12 + 2 * k) = (pulseOf s.block s.lines k == .ccw)

/-- 20_memory.md R34. Bit `i` of the vector goes to byte `i / 8` of the payload, at bit position `i % 8`. -/
def Obligations.VectorBitGoesToItsByte : Prop :=
  ∀ (v : Variant) (vec : ButtonVec) (i : Nat), i < width v →
    i / 8 < (serialize v vec).length
      ∧ ((serialize v vec).getD (i / 8) 0).getLsbD (i % 8) = vec.getLsbD i

/-- 41_button_vector_encoder.md R73. Every payload bit at or above W is 0, whatever the vector; so is every bit
of the buffer bytes a GET_REPORT writes. -/
def Obligations.PaddingBitsAreZero : Prop :=
  (∀ (v : Variant) (vec : ButtonVec) (i : Nat), width v ≤ i → i < 8 * payloadLen v →
    i / 8 < (serialize v vec).length ∧ ((serialize v vec).getD (i / 8) 0).getLsbD (i % 8) = false)
  ∧ ∀ s : State, ∃ t, exec (.getReport s.cfg.reportId) s = .next t
      ∧ ∀ i, width s.cfg.variant ≤ i → i < 8 * payloadLen s.cfg.variant →
        ∃ x, t.buf.read (i / 8) = some x ∧ x.getLsbD (i % 8) = false

/-- 20_memory.md R36. For a vector of W bits, payload byte j is `vec[8j+7:8j]`, the bytes read as one
little-endian integer give the vector, and in V6 bytes 1 to 3 are 0. -/
def Obligations.PayloadIsTheLittleEndianVector : Prop :=
  ∀ (v : Variant) (vec : ButtonVec), vec.toNat < 2 ^ width v →
    (∀ j, j < payloadLen v → (serialize v vec).getD j 0 = (vec >>> (8 * j)).setWidth 8)
    ∧ (serialize v vec).foldr (fun x n => x.toNat + 256 * n) 0 = vec.toNat
    ∧ (v = .v6 → serialize v vec = [vec.setWidth 8, 0x00#8, 0x00#8, 0x00#8])

/-- 41_button_vector_encoder.md R77. TICK's `active` is 1 exactly when some bit of its vector is 1; a pulse
alone makes it 1. -/
def Obligations.ActiveIsAnyBitOfTheVector : Prop :=
  ∀ s : State, ∃ t vec payload act, exec .tick s = .next t
    ∧ t.outputs = s.outputs ++ [.tick vec payload s.cfg.reportId act]
    ∧ (act = true ↔ ∃ i, i < width s.cfg.variant ∧ vec.getLsbD i = true)
    ∧ ∀ k, k < nEnc s.cfg.variant → pulseOf s.block s.lines k ≠ .none → act = true

/-- 40_quadrature_decoder.md R63. The CW and CCW bits of one encoder are never both 1 in one vector. -/
def Obligations.NeverBothPulsesOfAnEncoder : Prop :=
  ∀ (v : Variant) (S : Snapshot) (pulses : List Pulse) (k : Nat), k < nEnc v →
    ¬ ((pack v S pulses).getLsbD (nReg v + nEbtn v + 2 * k) = true
      ∧ (pack v S pulses).getLsbD (nReg v + nEbtn v + 2 * k + 1) = true)

/-! ### The decoder -/

/-- 40_quadrature_decoder.md R58. In TICK's vector an encoder's CW bit is 1 exactly for the four transitions of
the CW set, its CCW bit exactly for the four of the CCW set, from the register before the commit. -/
def Obligations.PulseBitsFollowTheTransitionSets : Prop :=
  ∀ (s : State) (k : Nat), k < nEnc s.cfg.variant → ∃ t o, exec .tick s = .next t
    ∧ t.outputs = s.outputs ++ [o]
    ∧ ((o.pulseBits s.cfg.variant k).1 = true ↔
        (s.block.prevAt k, cur s.lines k) ∈
          [(0b00#2, 0b01#2), (0b01#2, 0b11#2), (0b11#2, 0b10#2), (0b10#2, 0b00#2)])
    ∧ ((o.pulseBits s.cfg.variant k).2 = true ↔
        (s.block.prevAt k, cur s.lines k) ∈
          [(0b00#2, 0b10#2), (0b10#2, 0b11#2), (0b11#2, 0b01#2), (0b01#2, 0b00#2)])

/-- 40_quadrature_decoder.md R59. The closed form: with d = p XOR c, TICK gives encoder k no pulse where d is
`00` or `11`, and otherwise CW or CCW by p[1] XOR c[0]. -/
def Obligations.PulseBitsFollowTheClosedForm : Prop :=
  ∀ (s : State) (k : Nat), k < nEnc s.cfg.variant → ∃ t o, exec .tick s = .next t
    ∧ t.outputs = s.outputs ++ [o]
    ∧ o.pulseBits s.cfg.variant k =
        (if s.block.prevAt k ^^^ cur s.lines k = 0b00#2 ∨ s.block.prevAt k ^^^ cur s.lines k = 0b11#2
          then (false, false)
          else if ((s.block.prevAt k).getLsbD 1 ^^ (cur s.lines k).getLsbD 0) = true then (true, false)
          else (false, true))

/-- 40_quadrature_decoder.md R66. The Gray-code property: exactly one of A, B changed gives exactly one pulse;
neither or both changed gives none. -/
def Obligations.ExactlyOneChangedLineGivesExactlyOnePulse : Prop :=
  ∀ (s : State) (k : Nat), k < nEnc s.cfg.variant → ∃ t o, exec .tick s = .next t
    ∧ t.outputs = s.outputs ++ [o]
    ∧ ((((s.block.prevAt k).getLsbD 1 ≠ lineAt s.lines.a k) ↔ (s.block.prevAt k).getLsbD 0 = lineAt s.lines.b k)
        → o.pulseBits s.cfg.variant k = (true, false) ∨ o.pulseBits s.cfg.variant k = (false, true))
    ∧ ((((s.block.prevAt k).getLsbD 1 = lineAt s.lines.a k) ↔ (s.block.prevAt k).getLsbD 0 = lineAt s.lines.b k)
        → o.pulseBits s.cfg.variant k = (false, false))

/-- 40_quadrature_decoder.md R65. A change of both A and B gives no pulse, and the register still takes the new
value. -/
def Obligations.BothLinesChangedGivesNoPulseAndCommits : Prop :=
  ∀ (s : State) (k : Nat), k < nEnc s.cfg.variant → cur s.lines k = ~~~(s.block.prevAt k) →
    ∃ t o, exec .tick s = .next t ∧ t.outputs = s.outputs ++ [o]
      ∧ o.pulseBits s.cfg.variant k = (false, false)
      ∧ t.block.prevAt k = cur s.lines k

/-- 40_quadrature_decoder.md R62. On the same state and snapshot a matching GET_REPORT shows the vector a TICK
would give; it leaves every register, so that a TICK after it gives what it would have given without it. -/
def Obligations.PeekSeesWhatTickWouldAndConsumesNothing : Prop :=
  ∀ s : State, ∃ t u w o o', exec (.getReport s.cfg.reportId) s = .next t
    ∧ exec .tick s = .next u ∧ exec .tick t = .next w
    ∧ t.outputs = s.outputs ++ [o] ∧ u.outputs = s.outputs ++ [o'] ∧ w.outputs = s.outputs ++ [o, o']
    ∧ o.vector = o'.vector ∧ t.block = s.block ∧ w.block = u.block

/-- 10_state.md R26. The registers are hidden state: two states that differ in `prev[k]` alone (or at all) give
different pulse bits for encoder k on some snapshot. -/
def Obligations.EveryRegisterValueIsDistinguishable : Prop :=
  ∀ (s s' : State) (k : Nat), k < nEnc s.cfg.variant → s'.cfg = s.cfg →
    s'.block.prevAt k ≠ s.block.prevAt k →
    ∃ S : Snapshot, S.wellFormed s.cfg.variant = true ∧ ∃ t t' o o',
      exec .tick { s with lines := S } = .next t ∧ exec .tick { s' with lines := S } = .next t'
        ∧ t.outputs = s.outputs ++ [o] ∧ t'.outputs = s'.outputs ++ [o']
        ∧ o.pulseBits s.cfg.variant k ≠ o'.pulseBits s.cfg.variant k

/-! ### Over several commands -/

/-- 10_state.md R18. Between commands `prev[k]` is the level of the most recent TICK, and `00` if none has run
since reset: after a last TICK or RESET any number of other commands leaves it, and before the first TICK after
power-on it is `00`. -/
def Obligations.RegisterHoldsTheLevelOfTheLastTick : Prop :=
  ∀ (s : State) (k : Nat), k < nEnc s.cfg.variant →
    (∀ (pre : List Input) (x : Input) (post : List Input), s.queue = pre ++ x :: post →
      (∀ y ∈ post, quiet y.command = true) →
      ∃ t, runAll s = .next t
        ∧ (x.command = .tick → t.block.prevAt k = cur x.snap k)
        ∧ (x.command = .reset → t.block.prevAt k = 0b00#2))
    ∧ (s.block = BlockState.powerOn s.cfg.variant → (∀ y ∈ s.queue, quiet y.command = true) →
      ∃ t, runAll s = .next t ∧ t.block.prevAt k = 0b00#2)

/-- 42_commands.md R88. GET_REPORT, SET_REPORT and NOP are transparent to TICK: inserting any number of them
between other commands changes neither a TICK's outputs nor the final registers. -/
def Obligations.HostTrafficIsTransparentToTicks : Prop :=
  ∀ (s : State) (pre mid post : List Input), s.queue = pre ++ mid ++ post →
    (∀ x ∈ mid, quiet x.command = true) →
    ∃ t t', runAll s = .next t ∧ runAll { s with queue := pre ++ post } = .next t'
      ∧ t.block = t'.block
      ∧ t.outputs.filter Output.isTick = t'.outputs.filter Output.isTick

/-- 40_quadrature_decoder.md R64. If encoder k's lines are the same at two consecutive TICKs, the second gives it
no pulse; GET_REPORTs between them do not change this. -/
def Obligations.UnchangedLinesGiveNoSecondPulse : Prop :=
  ∀ (s : State) (k : Nat) (x : Input) (mid : List Input) (y : Input), k < nEnc s.cfg.variant →
    s.queue = x :: mid ++ [y] → x.command = .tick → y.command = .tick →
    (∀ z ∈ mid, ∃ rid, z.command = .getReport rid) → cur y.snap k = cur x.snap k →
    ∃ t outs o, runAll s = .next t ∧ t.outputs = s.outputs ++ outs ++ [o]
      ∧ outs.length = mid.length + 1 ∧ o.isTick = true ∧ o.pulseBits s.cfg.variant k = (false, false)

/-- 70_reset_and_hazards.md R112, its table. If encoder k has moved n steps in one direction since the register
was written, TICK reports by n mod 4: none, one pulse in the true direction, none, one in the opposite. -/
def Obligations.AliasingByStepsModFour : Prop :=
  ∀ (s : State) (k n : Nat), k < nEnc s.cfg.variant →
    (cur s.lines k = cwNext^[n] (s.block.prevAt k) → ∃ t o, exec .tick s = .next t
      ∧ t.outputs = s.outputs ++ [o]
      ∧ o.pulseBits s.cfg.variant k = (decide (n % 4 = 1), decide (n % 4 = 3)))
    ∧ (cur s.lines k = ccwNext^[n] (s.block.prevAt k) → ∃ t o, exec .tick s = .next t
      ∧ t.outputs = s.outputs ++ [o]
      ∧ o.pulseBits s.cfg.variant k = (decide (n % 4 = 3), decide (n % 4 = 1)))

/-- A correct count at one step per TICK: over any number of TICKs, if encoder k makes at most one step before
each, the results' pulses are its motions, one for one (derived from R59 and R112's last sentence). -/
def Obligations.OneStepPerTickIsReportedExactly : Prop :=
  ∀ (s : State) (k : Nat) (moves : List Move), k < nEnc s.cfg.variant →
    (∀ x ∈ s.queue, x.command = .tick) →
    s.queue.map (fun x => cur x.snap k) = trail (s.block.prevAt k) moves →
    ∃ t outs, runAll s = .next t ∧ t.outputs = s.outputs ++ outs
      ∧ outs.map (Output.pulseBits s.cfg.variant k)
        = moves.map fun m => (decide (m = .cw), decide (m = .ccw))

/-- 70_reset_and_hazards.md R113. The first TICK after RESET or power-on reports CW if the encoder rests at
`01`, CCW if it rests at `10`, and nothing if it rests at `00` or `11`. -/
def Obligations.FirstTickAfterResetComparesAgainstZero : Prop :=
  ∀ (s : State) (k : Nat), k < nEnc s.cfg.variant →
    (∀ (r x : Input) (rest : List Input), s.queue = r :: x :: rest → r.command = .reset → x.command = .tick →
      ∃ t o, Host.Core.run Sys2Proof.core 2 s = .next t ∧ t.outputs = s.outputs ++ [.none, o]
        ∧ o.isTick = true
        ∧ o.pulseBits s.cfg.variant k
          = (decide (cur x.snap k = 0b01#2), decide (cur x.snap k = 0b10#2)))
    ∧ (s.block = BlockState.powerOn s.cfg.variant → ∃ t o, exec .tick s = .next t
        ∧ t.outputs = s.outputs ++ [o]
        ∧ o.pulseBits s.cfg.variant k
          = (decide (cur s.lines k = 0b01#2), decide (cur s.lines k = 0b10#2)))

/-- One full cycle in the CW order gives four CW pulses, one per TICK, from every starting level, and ends where
it began (40_quadrature_decoder.md R67, 90_conflicts.md C1). -/
def Obligations.FullClockwiseCycleGivesFourPulses : Prop :=
  ∀ (s : State) (k : Nat) (x₁ x₂ x₃ x₄ : Input), k < nEnc s.cfg.variant →
    s.queue = [x₁, x₂, x₃, x₄] → (∀ x ∈ s.queue, x.command = .tick) →
    cur x₁.snap k = cwNext (s.block.prevAt k) → cur x₂.snap k = cwNext (cur x₁.snap k) →
    cur x₃.snap k = cwNext (cur x₂.snap k) → cur x₄.snap k = cwNext (cur x₃.snap k) →
    ∃ t outs, runAll s = .next t ∧ t.outputs = s.outputs ++ outs
      ∧ outs.map (Output.pulseBits s.cfg.variant k) = List.replicate 4 (true, false)
      ∧ t.block.prevAt k = s.block.prevAt k

/-- A held button shows again at the next TICK and a pulse does not: two TICKs on one snapshot give vectors with
the same button bits, the second without any pulse (70_reset_and_hazards.md R115). -/
def Obligations.HeldButtonsStayAndPulsesVanish : Prop :=
  ∀ s : State, ∃ t u o o', exec .tick s = .next t ∧ exec .tick t = .next u
    ∧ u.outputs = s.outputs ++ [o, o']
    ∧ (∀ i, i < nReg s.cfg.variant + nEbtn s.cfg.variant → o'.vector.getLsbD i = o.vector.getLsbD i)
    ∧ ∀ i, nReg s.cfg.variant + nEbtn s.cfg.variant ≤ i → o'.vector.getLsbD i = false

/-! ### The boundary -/

/-- 40_quadrature_decoder.md R56 as it reaches the vector: where the snapshot is the sampler's reading of the
electrical levels of a variant's lines, a button's bit is 1 exactly when its line is LOW, and an encoder's level
is the inverted pair. -/
def Obligations.LowLinesReadAsserted : Prop :=
  ∀ (s : State) (levels : Snapshot), levels.wellFormed s.cfg.variant = true → s.lines = sampleLevels levels →
    ∃ t o, exec .tick s = .next t ∧ t.outputs = s.outputs ++ [o]
      ∧ (∀ i, i < nReg s.cfg.variant → o.vector.getLsbD i = !lineAt levels.btn i)
      ∧ (∀ j, j < nEbtn s.cfg.variant → o.vector.getLsbD (nReg s.cfg.variant + j) = !lineAt levels.ebtn j)
      ∧ ∀ k, k < nEnc s.cfg.variant → t.block.prevAt k = ~~~(cur levels k)
end

