-- ==== Sys2Proof/Laws/Quadrature.lean ====
section
/-! SUPPORT. What the decoder's operations give. -/

namespace Sys2Proof.Machine

/-- The pulse of DECODE_STEP is CLASSIFY's. -/
theorem decodeStep_pulse (p c : Level) : (decodeStep p c).1 = classify p c := rfl

/-- The conditional commit leaves the sampled level in every case (40_quadrature_decoder.md R61). -/
theorem decodeStep_commit (p c : Level) : (decodeStep p c).2 = c := by
  by_cases h : c = p <;> simp [decodeStep, h]

/-- DECODE_PEEK and DECODE_STEP see the same pulses (40_quadrature_decoder.md R62). -/
theorem decodeAll_pulses (v : Variant) (st : BlockState) (S : Snapshot) :
    (decodeAll v st S).map Prod.fst = peekAll v st S := by
  simp [decodeAll, peekAll, decodePeek, decodeStep_pulse, Function.comp_def]

theorem decodeAll_commits (v : Variant) (st : BlockState) (S : Snapshot) :
    (decodeAll v st S).map Prod.snd = (List.range (nEnc v)).map (cur S) := by
  simp [decodeAll, decodeStep_commit, Function.comp_def]

theorem peekAll_getD (v : Variant) (st : BlockState) (S : Snapshot) (k : Nat) (hk : k < nEnc v) :
    (peekAll v st S).getD k .none = pulseOf st S k := by
  simp [peekAll, pulseOf, decodePeek, List.getD_eq_getElem?_getD, hk]

theorem prevAt_map (n : Nat) (f : Nat → Level) (k : Nat) (hk : k < n) :
    (BlockState.mk ((List.range n).map f)).prevAt k = f k := by
  simp [BlockState.prevAt, List.getD_eq_getElem?_getD, hk]

end Sys2Proof.Machine
end

