-- ==== Sys2Proof/Laws/ButtonVector.lean ====
section
/-! SUPPORT. What the encoder's operations give. -/

namespace Sys2Proof.Machine

theorem packBits_length (v : Variant) (S : Snapshot) (pulses : List Pulse) :
    (packBits v S pulses).length = width v := by
  cases v <;> simp [packBits, width, nReg, nEbtn, nEnc, List.length_flatMap]

theorem pack_bit (v : Variant) (S : Snapshot) (pulses : List Pulse) (i : Nat) :
    (pack v S pulses).getLsbD i = (packBits v S pulses).getD i false := by
  have hw : width v ≤ 21 := by cases v <;> decide
  have hl := packBits_length v S pulses
  simp only [pack, BitVec.getLsbD_setWidth, BitVec.getLsbD_ofBoolListLE]
  by_cases h : i < 21
  · simp [h]
  · have : (packBits v S pulses).length ≤ i := by omega
    simp [h, List.getD_eq_getElem?_getD, List.getElem?_eq_none this]

/-- PACK puts every source at its position and nothing else (41_button_vector_encoder.md R68). -/
theorem pack_vectorOf (v : Variant) (S : Snapshot) (pulses : List Pulse) :
    VectorOf v S (fun k => pulses.getD k .none) (pack v S pulses) := by
  constructor
  · intro src h
    rw [pack_bit]
    cases v <;> cases src <;>
      simp only [Source.configured, nReg, nEbtn, nEnc, Nat.not_lt_zero] at h <;>
      (rename_i n; interval_cases n <;> rfl)
  · intro i hi
    rw [pack_bit, List.getD_eq_getElem?_getD, List.getElem?_eq_none (by rw [packBits_length]; exact hi)]
    rfl

/-- A vector of some pulses never has both bits of an encoder set (40_quadrature_decoder.md R63). -/
theorem vectorOf_legal {v : Variant} {S : Snapshot} {pulse : Nat → Pulse} {vec : ButtonVec}
    (h : VectorOf v S pulse vec) : LegalVector v vec := by
  refine ⟨h.2, fun k hk hb => ?_⟩
  have h1 := h.1 (.cw k) hk
  have h2 := h.1 (.ccw k) hk
  rw [hb.1] at h1
  rw [hb.2] at h2
  simp only [Source.value] at h1 h2
  cases hp : pulse k <;> simp [hp] at h1 h2

theorem payloadByte_bit (v : Variant) (vec : ButtonVec) (j b : Nat) (hb : b < 8) :
    (payloadByte v vec j).getLsbD b = payloadBit v vec (8 * j + b) := by
  simp only [payloadByte, BitVec.getLsbD_setWidth, BitVec.getLsbD_ofBoolListLE]
  simp [List.getD_eq_getElem?_getD, hb]

theorem serialize_length (v : Variant) (vec : ButtonVec) : (serialize v vec).length = payloadLen v := by
  simp [serialize]

theorem serialize_bit (v : Variant) (vec : ButtonVec) (i : Nat) (hi : i < 8 * payloadLen v) :
    ((serialize v vec).getD (i / 8) 0).getLsbD (i % 8) = payloadBit v vec i := by
  have hj : i / 8 < payloadLen v := by omega
  have hb : i % 8 < 8 := Nat.mod_lt _ (by decide)
  have : (serialize v vec).getD (i / 8) 0 = payloadByte v vec (i / 8) := by
    simp [serialize, List.getD_eq_getElem?_getD, hj]
  rw [this, payloadByte_bit v vec _ _ hb, Nat.div_add_mod]

/-- SERIALIZE gives the payload (41_button_vector_encoder.md R74). -/
theorem serialize_payloadOf (v : Variant) (vec : ButtonVec) : PayloadOf v vec (serialize v vec) := by
  have hw : width v ≤ 8 * payloadLen v := by cases v <;> decide
  refine ⟨serialize_length v vec, fun i hi => ?_, fun i hi hi' => ?_⟩
  · rw [serialize_bit v vec i (by omega)]; simp [payloadBit, hi]
  · rw [serialize_bit v vec i hi']; simp [payloadBit, Nat.not_lt.mpr hi]

theorem active_iff (vec : ButtonVec) : active vec = true ↔ ∃ i, vec.getLsbD i = true := by
  constructor
  · intro h
    by_contra hn
    refine (bne_iff_ne.mp h) (BitVec.eq_of_getLsbD_eq fun i _ => ?_)
    simpa using fun hi => hn ⟨i, hi⟩
  · rintro ⟨i, hi⟩
    refine bne_iff_ne.mpr fun h => ?_
    simp [h] at hi

end Sys2Proof.Machine
end

