-- ==== Sys2Proof/Laws/Decode.lean ====
section
/-! SUPPORT. Decoding by the value of the `cmd` field. -/

namespace Sys2Proof

theorem decodePort_rst (p : PortWord) (h : p.rst = true) : decodePort p = .reset := by
  simp [decodePort, h]

theorem decodePort_word (p : PortWord) (h : p.rst = false) : decodePort p = decodeWord p.word := by
  simp [decodePort, h]

theorem decodeWord_nop (w : CmdWord) (h : cmdField w = 0b00#2) : decodeWord w = .nop := by
  simp [decodeWord, h]

theorem decodeWord_tick (w : CmdWord) (h : cmdField w = 0b01#2) : decodeWord w = .tick := by
  simp [decodeWord, h]

theorem decodeWord_getReport (w : CmdWord) (h : cmdField w = 0b10#2) :
    decodeWord w = .getReport (ridField w) := by
  simp [decodeWord, h]

theorem decodeWord_setReport (w : CmdWord) (h : cmdField w = 0b11#2) :
    decodeWord w = .setReport (ridField w) := by
  simp [decodeWord, h]

/-- The `cmd` field by its two bits. -/
theorem cmdField_eq_iff (w : CmdWord) (c : BitVec 2) :
    cmdField w = c ↔ w.getLsbD 9 = c.getLsbD 1 ∧ w.getLsbD 8 = c.getLsbD 0 := by
  constructor
  · rintro rfl
    simp [cmdField]
  · intro ⟨h1, h0⟩
    refine BitVec.eq_of_getLsbD_eq fun i hi => ?_
    interval_cases i
    · simpa [cmdField] using h0
    · simpa [cmdField] using h1

theorem ridField_eq (w : CmdWord) : ridField w = w.setWidth 8 := by
  refine BitVec.eq_of_getLsbD_eq fun i hi => ?_
  simp [ridField]

end Sys2Proof
end

