-- ==== Sys2Proof/Laws/Memory.lean ====
section
/-! SUPPORT. The caller's buffer: reading after writing, and the canonical form. -/

namespace Sys2Proof.Machine

theorem read_write (m : Memory) (i j : Nat) (x : Byte) :
    (Memory.write m i x).read j = if j = i then some x else m.read j := by
  induction m with
  | nil => simp only [Memory.write, Memory.read, eq_comm]
  | cons c m ih =>
    obtain ⟨a, y⟩ := c
    simp only [Memory.write]
    split
    · simp only [Memory.read, eq_comm]
    · split
      · subst a
        by_cases h : j = i <;> simp [Memory.read, h, Ne.symm]
      · simp only [Memory.read, ih]
        by_cases h : j = i
        · subst j; simp_all [eq_comm]
        · simp [h]

theorem write_lower (m : Memory) (i b : Nat) (x : Byte) (hb : b < i) (h : ∀ c ∈ m, b < c.1) :
    ∀ c ∈ Memory.write m i x, b < c.1 := by
  induction m with
  | nil => simp [Memory.write, hb]
  | cons d m ih =>
    obtain ⟨a, y⟩ := d
    simp only [List.mem_cons, forall_eq_or_imp] at h
    simp only [Memory.write]
    split
    · simpa [hb] using h
    · split
      · simpa [hb] using h.2
      · simpa [h.1] using ih h.2

theorem write_wf (m : Memory) (i : Nat) (x : Byte) (h : m.wf) : (Memory.write m i x).wf := by
  induction m with
  | nil => simp [Memory.write]
  | cons d m ih =>
    obtain ⟨a, y⟩ := d
    have h' := List.pairwise_cons.mp h
    simp only [Memory.write]
    split
    · rename_i hi
      refine List.pairwise_cons.mpr ⟨fun c hc => ?_, h⟩
      rcases List.mem_cons.mp hc with rfl | hc
      · exact hi
      · exact Nat.lt_trans hi (h'.1 c hc)
    · split
      · subst i
        exact List.pairwise_cons.mpr h'
      · exact List.pairwise_cons.mpr
          ⟨write_lower m i a x (by omega) h'.1, ih h'.2⟩

theorem writeAll_wf (m : Memory) (ws : List Host.Cell) (h : m.wf) : (m.writeAll ws).wf := by
  induction ws generalizing m with
  | nil => exact h
  | cons w ws ih => exact ih _ (write_wf m w.1 w.2 h)

/-- The buffer of every power-on state is in its canonical form. -/
theorem resetOf_buf_wf (cfg : Config) : (State.resetOf cfg).buf.wf := List.Pairwise.nil

theorem writeAll_append (m : Memory) (ws vs : List Host.Cell) :
    m.writeAll (ws ++ vs) = (m.writeAll ws).writeAll vs := by
  simp [Memory.writeAll]

/-- `BufWrite`s of a payload: its bytes at 0..length-1, every other index as before. -/
theorem read_bufWrites (m : Memory) (bytes : List Byte) (i : Nat) :
    (m.writeAll (bufWrites bytes)).read i
      = if i < bytes.length then some (bytes.getD i 0) else m.read i := by
  have key : ∀ n, (m.writeAll ((List.range n).map fun i => (i, bytes.getD i 0))).read i
      = if i < n then some (bytes.getD i 0) else m.read i := by
    intro n
    induction n with
    | zero => simp [Memory.writeAll]
    | succ n ih =>
      rw [List.range_succ, List.map_append, writeAll_append]
      simp only [Memory.writeAll, List.map_cons, List.map_nil, List.foldl_cons, List.foldl_nil] at ih ⊢
      rw [read_write, ih]
      by_cases h : i = n
      · subst i; simp
      · have : i < n + 1 ↔ i < n := by omega
        simp [h, this]
  exact key bytes.length

end Sys2Proof.Machine
end

