-- ==== Sys2Proof/Laws/PerInstr.lean ====
section
/-! SUPPORT. Statements about every command as syntax, one lemma per constructor. -/

/-- The format and the match and mask of the command's row in spec/opcode_table.json: what the encoder writes
lies in that row. -/
def Sys2Proof.Laws.TableRow.Statement : Sys2Proof.Instr → Prop
  | .nop           => (Sys2Proof.encode .nop).rst = false ∧ (Sys2Proof.encode .nop).word &&& 0x300#10 = 0x000#10
  | .tick          => (Sys2Proof.encode .tick).rst = false ∧ (Sys2Proof.encode .tick).word &&& 0x300#10 = 0x100#10
  | .getReport rid => (Sys2Proof.encode (.getReport rid)).rst = false
      ∧ (Sys2Proof.encode (.getReport rid)).word &&& 0x300#10 = 0x200#10
  | .setReport rid => (Sys2Proof.encode (.setReport rid)).rst = false
      ∧ (Sys2Proof.encode (.setReport rid)).word &&& 0x300#10 = 0x300#10
  | .reset         => (Sys2Proof.encode .reset).rst = true

theorem Sys2Proof.Laws.TableRow.nop : Sys2Proof.Laws.TableRow.Statement .nop := ⟨rfl, rfl⟩

theorem Sys2Proof.Laws.TableRow.tick : Sys2Proof.Laws.TableRow.Statement .tick := ⟨rfl, rfl⟩

theorem Sys2Proof.Laws.TableRow.getReport (rid : Sys2Proof.ReportId) :
    Sys2Proof.Laws.TableRow.Statement (.getReport rid) := by
  refine ⟨rfl, BitVec.eq_of_getLsbD_eq fun i hi => ?_⟩
  interval_cases i <;> simp [Sys2Proof.encode]

theorem Sys2Proof.Laws.TableRow.setReport (rid : Sys2Proof.ReportId) :
    Sys2Proof.Laws.TableRow.Statement (.setReport rid) := by
  refine ⟨rfl, BitVec.eq_of_getLsbD_eq fun i hi => ?_⟩
  interval_cases i <;> simp [Sys2Proof.encode]

theorem Sys2Proof.Laws.TableRow.reset : Sys2Proof.Laws.TableRow.Statement .reset := rfl
end

