-- ==== Sys2Proof/Laws/State.lean ====
section
/-! SUPPORT. What each state update leaves in each field. -/

namespace Sys2Proof.Machine

@[simp] theorem respond_cfg (s : State) (r : BlockState × Output) : (s.respond r).cfg = s.cfg := rfl
@[simp] theorem respond_block (s : State) (r : BlockState × Output) : (s.respond r).block = r.1 := rfl
@[simp] theorem respond_lines (s : State) (r : BlockState × Output) : (s.respond r).lines = s.lines := rfl
@[simp] theorem respond_queue (s : State) (r : BlockState × Output) : (s.respond r).queue = s.queue := rfl
@[simp] theorem respond_buf (s : State) (r : BlockState × Output) :
    (s.respond r).buf = s.buf.writeAll r.2.writes := rfl
@[simp] theorem respond_outputs (s : State) (r : BlockState × Output) :
    (s.respond r).outputs = s.outputs ++ [r.2] := rfl

@[simp] theorem present_cfg (s : State) (S : Snapshot) (q : List Input) : (s.present S q).cfg = s.cfg := rfl
@[simp] theorem present_block (s : State) (S : Snapshot) (q : List Input) : (s.present S q).block = s.block := rfl
@[simp] theorem present_lines (s : State) (S : Snapshot) (q : List Input) : (s.present S q).lines = S := rfl
@[simp] theorem present_queue (s : State) (S : Snapshot) (q : List Input) : (s.present S q).queue = q := rfl
@[simp] theorem present_buf (s : State) (S : Snapshot) (q : List Input) : (s.present S q).buf = s.buf := rfl
@[simp] theorem present_outputs (s : State) (S : Snapshot) (q : List Input) :
    (s.present S q).outputs = s.outputs := rfl

@[simp] theorem resetOf_cfg (cfg : Config) : (State.resetOf cfg).cfg = cfg := rfl
@[simp] theorem resetOf_block (cfg : Config) : (State.resetOf cfg).block = BlockState.powerOn cfg.variant := rfl
@[simp] theorem resetOf_lines (cfg : Config) : (State.resetOf cfg).lines = releasedLines cfg.variant := rfl
@[simp] theorem resetOf_queue (cfg : Config) : (State.resetOf cfg).queue = [] := rfl
@[simp] theorem resetOf_buf (cfg : Config) : (State.resetOf cfg).buf = [] := rfl
@[simp] theorem resetOf_outputs (cfg : Config) : (State.resetOf cfg).outputs = [] := rfl

/-- Fetching takes the caller's next inputs and leaves the rest. -/
theorem fetch_cons (s : State) (inp : Input) (rest : List Input) (h : s.queue = inp :: rest) :
    s.fetch = some (inp.command, s.present inp.snap rest) := by
  simp [State.fetch, h]

theorem fetch_nil (s : State) (h : s.queue = []) : s.fetch = none := by
  simp [State.fetch, h]

/-- A placed port value is fetched next, on the snapshot that was to come or on the lines as they stand. -/
theorem fetch_placePort (s : State) (p : PortWord) :
    (s.placePort p).fetch =
      some (decodePort p, s.present ((s.queue.head?.map Input.snap).getD s.lines) s.queue.tail) := by
  cases h : s.queue <;> simp [State.placePort, State.fetch, State.present, Input.command, h]

end Sys2Proof.Machine
end

