-- ==== Sys2Proof/Laws/Step.lean ====
section
/-! SUPPORT. What each command and each step can do, said once. -/

namespace Sys2Proof.Machine

/-- What a command makes of the block and which result it gives. -/
def commandResult (cfg : Config) (st : BlockState) (S : Snapshot) : Instr → BlockState × Output
  | .nop           => nopCmd st
  | .tick          => tickCmd cfg st S
  | .getReport rid => getReportCmd cfg st rid S
  | .setReport rid => setReportCmd st rid
  | .reset         => resetCmd cfg st

/-- Every command answers a next state, which is that of its result. -/
theorem exec_eq (i : Instr) (s : State) :
    exec i s = .next (s.respond (commandResult s.cfg s.block s.lines i)) := by
  cases i <;> rfl

/-- Everything TICK can do to the block. -/
theorem tickCmd_eq (cfg : Config) (st : BlockState) (S : Snapshot) :
    tickCmd cfg st S =
      (⟨(List.range (nEnc cfg.variant)).map (cur S)⟩,
        .tick (pack cfg.variant S (peekAll cfg.variant st S))
          (serialize cfg.variant (pack cfg.variant S (peekAll cfg.variant st S))) cfg.reportId
          (active (pack cfg.variant S (peekAll cfg.variant st S)))) := by
  simp only [tickCmd, decodeAll_pulses, decodeAll_commits]

theorem getReportCmd_mismatch (cfg : Config) (st : BlockState) (rid : ReportId) (S : Snapshot)
    (h : rid ≠ cfg.reportId) : getReportCmd cfg st rid S = (st, .report 0 none []) := by
  simp [getReportCmd, h]

theorem getReportCmd_match (cfg : Config) (st : BlockState) (S : Snapshot) :
    getReportCmd cfg st cfg.reportId S =
      (st, .report (payloadLen cfg.variant) (some (pack cfg.variant S (peekAll cfg.variant st S)))
        (bufWrites (serialize cfg.variant (pack cfg.variant S (peekAll cfg.variant st S))))) := by
  simp [getReportCmd, build]

theorem getReportCmd_block (cfg : Config) (st : BlockState) (rid : ReportId) (S : Snapshot) :
    (getReportCmd cfg st rid S).1 = st := by
  by_cases h : rid = cfg.reportId
  · rw [h, getReportCmd_match]
  · rw [getReportCmd_mismatch _ _ _ _ h]

/-- The vector of the pulses the decoder reads is the block's vector. -/
theorem pack_peek_vectorOf (v : Variant) (st : BlockState) (S : Snapshot) :
    VectorOf v S (pulseOf st S) (pack v S (peekAll v st S)) := by
  have h := pack_vectorOf v S (peekAll v st S)
  refine ⟨fun src hs => ?_, h.2⟩
  rw [h.1 src hs]
  cases src with
  | btn i => rfl
  | ebtn j => rfl
  | cw k => simp only [Source.value, peekAll_getD v st S k hs]
  | ccw k => simp only [Source.value, peekAll_getD v st S k hs]

/-- A step with no command left. -/
theorem step_idle (s : State) (h : s.queue = []) : step s = .next s := by
  simp [step, State.fetch, h]

/-- A step with a command left. -/
theorem step_command (s : State) (inp : Input) (rest : List Input) (h : s.queue = inp :: rest) :
    step s = .next ((s.present inp.snap rest).respond
      (commandResult s.cfg s.block inp.snap inp.command)) := by
  simp [step, State.fetch, h, exec_eq]

/-- The two ways a step goes. -/
theorem step_cases {s t : State} (h : step s = .next t) :
    (s.queue = [] ∧ t = s) ∨
    (∃ inp rest, s.queue = inp :: rest ∧ t = (s.present inp.snap rest).respond
      (commandResult s.cfg s.block inp.snap inp.command)) := by
  cases hq : s.queue with
  | nil => rw [step_idle s hq] at h; exact .inl ⟨rfl, (Host.Outcome.next.inj h).symm⟩
  | cons inp rest =>
    rw [step_command s inp rest hq] at h
    exact .inr ⟨inp, rest, rfl, (Host.Outcome.next.inj h).symm⟩

/-- Every step answers a next state. -/
theorem step_next (s : State) : ∃ t, step s = .next t := by
  cases hq : s.queue with
  | nil => exact ⟨_, step_idle s hq⟩
  | cons inp rest => exact ⟨_, step_command s inp rest hq⟩

/-- A run of `n + 1` steps is a run of `n` from the state its first step leaves, for any machine. -/
theorem core_run_succ (M : Host.Core) (n : Nat) (s t : M.State) (h : M.step s = .next t) :
    M.run (n + 1) s = M.run n t := by
  simp only [Host.Core.run, h]

theorem run_succ {s t : State} (n : Nat) (h : step s = .next t) :
    Host.Core.run Sys2Proof.core (n + 1) s = Host.Core.run Sys2Proof.core n t :=
  core_run_succ Sys2Proof.core n s t h

/-- Which registers a command leaves. -/
theorem commandResult_block (cfg : Config) (st : BlockState) (S : Snapshot) (i : Instr) :
    (commandResult cfg st S i).1 =
      if i = .tick then ⟨(List.range (nEnc cfg.variant)).map (cur S)⟩
      else if i = .reset then ⟨(List.range (nEnc cfg.variant)).map fun _ => 0b00#2⟩
      else st := by
  cases i <;> simp [commandResult, nopCmd, tickCmd_eq, getReportCmd_block, setReportCmd, resetCmd]

/-- The pulse bits of a result that carries the block's vector. -/
theorem pulseBits_eq (v : Variant) (st : BlockState) (S : Snapshot) (k : Nat) (hk : k < nEnc v) (o : Output)
    (ho : o.vector = pack v S (peekAll v st S)) :
    o.pulseBits v k = (pulseOf st S k == .cw, pulseOf st S k == .ccw) := by
  have h := (pack_peek_vectorOf v st S).1
  simp only [Output.pulseBits, ho, h (.cw k) hk, h (.ccw k) hk]
  rfl

end Sys2Proof.Machine
end

