-- ==== Sys2Proof/Tests/Slice0.lean ====
section
/-! SUPPORT. Tests against the vectors of 95_test_vectors.md, the checks of WellFormed, and a witness for every
statement of Certificates/Slice0/Obligations.lean that has hypotheses. -/

namespace Sys2Proof.Tests

open Sys2Proof Sys2Proof.Machine

/-! ### Helpers -/

/-- The lines of a group from a number whose bit `i` is line `i`. -/
def bits (n x : Nat) : List Bool := (List.range n).map x.testBit

/-- A V21 snapshot in the notation of 30_encoding.md R55. -/
def snap (btn ebtn : Nat) (enc : List Level) : Snapshot :=
  { btn := bits 6 btn, ebtn := bits 5 ebtn, a := enc.map (·.getLsbD 1), b := enc.map (·.getLsbD 0) }

/-- A V6 snapshot. -/
def snap6 (btn : Nat) : Snapshot := { btn := bits 6 btn, ebtn := [], a := [], b := [] }

/-- Configurations for tests; `0x05` stands in for the open report ID. -/
def cfg21 : Config := ⟨.v21, 0x05#8⟩
def cfg6 : Config := ⟨.v6, 0x05#8⟩

/-- A V21 machine with the given registers, lines and further commands. -/
def at21 (prev : List Level) (S : Snapshot) (queue : List Input) : State :=
  { State.resetOf cfg21 with block := ⟨prev⟩, lines := S, queue := queue }

/-- A V6 machine. -/
def at6 (S : Snapshot) : State := { State.resetOf cfg6 with lines := S }

/-- No encoder asserted, nothing pressed. -/
def quiet21 : Snapshot := snap 0 0 [0, 0, 0, 0, 0]

def nextOf : Host.Outcome State Fault Refusal → Option State
  | .next s => some s
  | .fault _ => none
  | .refused _ => none

def outputsOf (o : Host.Outcome State Fault Refusal) : Option (List Output) := (nextOf o).map State.outputs
def prevOf (o : Host.Outcome State Fault Refusal) : Option (List Level) := (nextOf o).map fun s => s.block.prev

/-- One step's inputs for the word the assembler writes. -/
def give (i : Instr) (S : Snapshot) : Input := ⟨encode i, S⟩

/-! ### Well-formedness -/

theorem test_wf_snap21 : (snap 0x3F 0x1F [3, 3, 3, 3, 3]).wellFormed .v21 = true := by decide
theorem test_wf_snap6 : (snap6 0x3F).wellFormed .v6 = true := by decide
theorem test_wf_btn_refused : ({ snap 0 0 [0, 0, 0, 0, 0] with btn := [] } : Snapshot).wellFormed .v21 = false := by
  decide
theorem test_wf_ebtn_refused :
    ({ snap 0 0 [0, 0, 0, 0, 0] with ebtn := [true] } : Snapshot).wellFormed .v21 = false := by decide
theorem test_wf_a_refused :
    ({ snap 0 0 [0, 0, 0, 0, 0] with a := bits 6 0 } : Snapshot).wellFormed .v21 = false := by decide
theorem test_wf_b_refused :
    ({ snap 0 0 [0, 0, 0, 0, 0] with b := bits 4 0 } : Snapshot).wellFormed .v21 = false := by decide
theorem test_wf_input_refused : (give .tick (snap6 0)).wellFormed .v21 = false := by decide
theorem test_wf_state_registers_refused : ¬ (at21 [0, 0, 0, 0] quiet21 []).wf := by decide
theorem test_wf_buffer_refused : ¬ Memory.wf [(1, 0xAA#8), (0, 0xAA#8)] := by decide

/-! ### Parameters (00_scope.md R4, R16) -/

theorem test_params_v21 : (nReg .v21, nEbtn .v21, nEnc .v21, width .v21, nLines .v21, payloadLen .v21)
    = (6, 5, 5, 21, 21, 3) := by decide
theorem test_params_v6 : (nReg .v6, nEbtn .v6, nEnc .v6, width .v6, nLines .v6, payloadLen .v6)
    = (6, 0, 0, 6, 6, 4) := by decide

/-! ### Decoding: words written from 30_encoding.md R44 to R46, R55 -/

theorem test_decode_nop : decodeWord 0b00_00000000#10 = .nop := by decide
theorem test_decode_nop_rid_ignored : decodeWord 0b00_11111111#10 = .nop := by decide
theorem test_decode_tick : decodeWord 0b01_00000000#10 = .tick := by decide
theorem test_decode_tick_rid_ignored : decodeWord 0b01_11111111#10 = .tick := by decide
theorem test_decode_getReport : decodeWord 0b10_10100101#10 = .getReport 0xA5#8 := by decide
theorem test_decode_setReport : decodeWord 0b11_10000001#10 = .setReport 0x81#8 := by decide
theorem test_decode_reset : decodePort ⟨true, 0b01_00000000#10⟩ = .reset := by decide
theorem test_table_tick : decodeTableWord 16 0x100 = some .tick := by decide
theorem test_table_reset : decodeTableWord 8 1 = some .reset := by decide
theorem test_table_word_too_wide : decodeTableWord 16 0x400 = none := by decide
theorem test_table_strobe_too_wide : decodeTableWord 8 2 = none := by decide

/-! ### CLASSIFY, V-C1 to V-C16; PACK and SERIALIZE, V-S; the boundary -/

theorem test_classify_table :
    [classify 0 0, classify 0 1, classify 0 2, classify 0 3, classify 1 0, classify 1 1, classify 1 2, classify 1 3,
      classify 2 0, classify 2 1, classify 2 2, classify 2 3, classify 3 0, classify 3 1, classify 3 2, classify 3 3]
    = [.none, .cw, .ccw, .none, .ccw, .none, .none, .cw, .cw, .none, .none, .ccw, .none, .ccw, .cw, .none] := by
  decide

/-- V-S2. -/
theorem test_pack_all_cw :
    pack .v21 (snap 0x3F 0x1F [0, 0, 0, 0, 0]) [.cw, .cw, .cw, .cw, .cw] = 0x0AAFFF#21
      ∧ serialize .v21 0x0AAFFF#21 = [0xFF#8, 0xAF#8, 0x0A#8] := by decide

/-- V-S3. -/
theorem test_pack_all_ccw :
    pack .v21 (snap 0x3F 0x1F [0, 0, 0, 0, 0]) [.ccw, .ccw, .ccw, .ccw, .ccw] = 0x1557FF#21
      ∧ serialize .v21 0x1557FF#21 = [0xFF#8, 0x57#8, 0x15#8] := by decide

/-- V-P17: the first bit of the third byte. -/
theorem test_pack_ccw2 :
    pack .v21 quiet21 [.none, .none, .ccw, .none, .none] = 0x010000#21
      ∧ serialize .v21 0x010000#21 = [0x00#8, 0x00#8, 0x01#8] := by decide

/-- V-S6. -/
theorem test_pack_v6 :
    pack .v6 (snap6 0b101010) [] = 0x2A#21 ∧ serialize .v6 0x2A#21 = [0x2A#8, 0x00#8, 0x00#8, 0x00#8] := by decide

/-- R56: released lines are HIGH and read 0; a LOW line reads 1. -/
theorem test_sampler :
    sampleLevels { btn := bits 6 0b111110, ebtn := bits 5 0b11111, a := bits 5 0b11111, b := bits 5 0b11110 }
      = snap 0b000001 0 [0b01#2, 0, 0, 0, 0] := by decide

/-! ### The commands -/

/-- V-K1. -/
theorem test_nop : prevOf (exec .nop (at21 [1, 2, 3, 0, 1] quiet21 [])) = some [1, 2, 3, 0, 1]
    ∧ outputsOf (exec .nop (at21 [1, 2, 3, 0, 1] quiet21 [])) = some [.none] := by decide

/-- The example of R83. -/
theorem test_tick_example :
    outputsOf (exec .tick (at21 [0, 0, 0, 0, 0] (snap 0b000001 0 [0b01#2, 0, 0, 0, 0]) []))
      = some [.tick 0x000801#21 [0x01#8, 0x08#8, 0x00#8] 0x05#8 true]
    ∧ prevOf (exec .tick (at21 [0, 0, 0, 0, 0] (snap 0b000001 0 [0b01#2, 0, 0, 0, 0]) []))
      = some [0b01#2, 0, 0, 0, 0] := by decide

/-- P3, line 7: 01 to 00 on encoder 3 is CCW. -/
theorem test_tick_ccw3 :
    outputsOf (exec .tick (at21 [0, 0, 0, 0b01#2, 0] quiet21 []))
      = some [.tick 0x040000#21 [0x00#8, 0x00#8, 0x04#8] 0x05#8 true] := by decide

/-- V-D3: both bits change. -/
theorem test_tick_ambiguous :
    outputsOf (exec .tick (at21 [0, 0, 0, 0, 0] (snap 0 0 [0b11#2, 0, 0, 0, 0]) []))
      = some [.tick 0x000000#21 [0x00#8, 0x00#8, 0x00#8] 0x05#8 false]
    ∧ prevOf (exec .tick (at21 [0, 0, 0, 0, 0] (snap 0 0 [0b11#2, 0, 0, 0, 0]) []))
      = some [0b11#2, 0, 0, 0, 0] := by decide

/-- V-K7. -/
theorem test_tick_v6 :
    outputsOf (exec .tick (at6 (snap6 0b000001)))
      = some [.tick 0x000001#21 [0x01#8, 0x00#8, 0x00#8, 0x00#8] 0x05#8 true]
    ∧ prevOf (exec .tick (at6 (snap6 0b000001))) = some [] := by decide

/-- The example of R84, into a buffer that held 0xAA at 0 and 3. -/
theorem test_getReport_match :
    (nextOf (exec (.getReport 0x05#8)
        { at21 [0, 0b10#2, 0, 0, 0] (snap 0 0 [0, 0b11#2, 0, 0, 0]) [] with buf := [(0, 0xAA#8), (3, 0xAA#8)] })).map
        (fun s => (s.buf, s.outputs, s.block.prev))
      = some ([(0, 0x00#8), (1, 0x40#8), (2, 0x00#8), (3, 0xAA#8)],
          [.report 3 (some 0x004000#21) [(0, 0x00#8), (1, 0x40#8), (2, 0x00#8)]],
          [0, 0b10#2, 0, 0, 0]) := by decide

/-- L1-3 and V-B3: an ID that differs in bit 7 alone; the buffer is untouched. -/
theorem test_getReport_mismatch :
    (nextOf (exec (.getReport 0x85#8)
        { at21 [0, 0b10#2, 0, 0, 0] (snap 0 0 [0, 0b11#2, 0, 0, 0]) []
          with buf := [(0, 0xAA#8), (1, 0xAA#8), (2, 0xAA#8)] })).map
        (fun s => (s.buf, s.outputs, s.block.prev))
      = some ([(0, 0xAA#8), (1, 0xAA#8), (2, 0xAA#8)], [.report 0 none []], [0, 0b10#2, 0, 0, 0]) := by decide

/-- V-K5. -/
theorem test_setReport : prevOf (exec (.setReport 0x05#8) (at21 [3, 0, 0, 0, 0] quiet21 [])) = some [3, 0, 0, 0, 0]
    ∧ outputsOf (exec (.setReport 0x05#8) (at21 [3, 0, 0, 0, 0] quiet21 [])) = some [.none] := by decide

/-- V-K6: RESET beside a TICK word. -/
theorem test_reset_over_tick :
    prevOf (step (at21 [3, 1, 2, 0, 3] quiet21 [⟨⟨true, 0x100#10⟩, snap 0 0 [1, 1, 1, 1, 1]⟩]))
      = some [0, 0, 0, 0, 0]
    ∧ outputsOf (step (at21 [3, 1, 2, 0, 3] quiet21 [⟨⟨true, 0x100#10⟩, snap 0 0 [1, 1, 1, 1, 1]⟩]))
      = some [.none] := by decide

/-- V-K3: a TICK word with its `rid` bits set, through a step. -/
theorem test_step_tick :
    outputsOf (step (at21 [1, 2, 3, 0, 1] quiet21 [⟨⟨false, 0x1FF#10⟩, snap 0 0 [1, 2, 3, 0, 1]⟩]))
      = some [.tick 0x000000#21 [0x00#8, 0x00#8, 0x00#8] 0x05#8 false] := by decide

/-! ### Placing an instruction -/

theorem test_placed_tick_runs :
    outputsOf (step ((State.resetOf cfg21).withFetchWord 16 0x100))
      = some [.tick 0x000000#21 [0x00#8, 0x00#8, 0x00#8] 0x05#8 false] := by decide
theorem test_placed_reset_runs :
    outputsOf (step (State.reset.withFetchWord 8 1)) = some [.none] := by decide

theorem test_placed_getReport_runs : ∃ t, step (State.reset.withFetchWord 16 0x200) = .next t := ⟨_, rfl⟩
theorem test_placed_nop_setReport_run :
    outputsOf (step (State.reset.withFetchWord 16 0x000)) = some [.none]
      ∧ outputsOf (step (State.reset.withFetchWord 16 0x300)) = some [.none] := by decide

/-! ### Witnesses: states and operands that meet the hypotheses of each statement -/

theorem witness_EveryCommandDecodesFromItsEncoding : (Instr.getReport 0xFF#8).wellFormed = true := by decide

theorem witness_EveryCommandWordIsACommand :
    (0x1FF#10).getLsbD 9 = (0x100#10).getLsbD 9 ∧ (0x1FF#10).getLsbD 8 = (0x100#10).getLsbD 8
      ∧ (0x100#10).getLsbD 9 = false := by decide

theorem witness_ReportIdOperandCountsForGetReportOnly :
    (0x3FF#10).getLsbD 9 = (0x300#10).getLsbD 9 ∧ (0x3FF#10).getLsbD 8 = (0x300#10).getLsbD 8
      ∧ ((0x300#10).getLsbD 9 = false ∨ (0x300#10).getLsbD 8 = true) := by decide
theorem witness_ReportIdOperandCountsForGetReportOnly_nop :
    (0x0FF#10).getLsbD 9 = (0x000#10).getLsbD 9 ∧ (0x0FF#10).getLsbD 8 = (0x000#10).getLsbD 8
      ∧ ((0x000#10).getLsbD 9 = false ∨ (0x000#10).getLsbD 8 = true) := by decide

theorem witness_StepRunsTheDecodedCommand :
    (at21 [0, 0, 0, 0, 0] quiet21 [give .tick (snap 1 0 [1, 0, 0, 0, 0])]).queue
        = ⟨⟨false, 0x100#10⟩, snap 1 0 [1, 0, 0, 0, 0]⟩ :: []
      ∧ ∃ t, step (at21 [0, 0, 0, 0, 0] quiet21 [give .tick (snap 1 0 [1, 0, 0, 0, 0])]) = .next t :=
  ⟨by decide, _, rfl⟩

theorem witness_StepWithoutACommandIsIdle : State.reset.queue = [] := rfl

theorem witness_PlacedCommandIsRunNext : 1023 < 1024 := by decide

/-- A well-shaped V21 state with a result handed out and a TICK to come. -/
def running : State :=
  { at21 [0, 0, 0, 0, 2] quiet21 [give .tick (snap 0x21 0x10 [0, 0, 0, 0, 0])] with
    buf := [(0, 0xAA#8)], outputs := [.none] }

theorem witness_EveryStepKeepsTheShape : running.wf ∧ ∃ t, step running = .next t := ⟨by decide, _, rfl⟩

theorem witness_EveryStepKeepsResultsLegal : running.resultsLegal ∧ ∃ t, step running = .next t := by
  refine ⟨fun o ho => ?_, _, rfl⟩
  simp only [running, List.mem_singleton] at ho
  subst ho
  exact trivial

theorem witness_NoRunChangesTheConfiguration : ∃ t, Host.Core.run Sys2Proof.core 2 running = .next t := ⟨_, rfl⟩

theorem witness_NopAndSetReportDoNothing_nop : Instr.nop = .nop ∨ ∃ rid, Instr.nop = .setReport rid := .inl rfl
theorem witness_NopAndSetReportDoNothing_setReport :
    Instr.setReport 0xFF#8 = .nop ∨ ∃ rid, Instr.setReport 0xFF#8 = .setReport rid := .inr ⟨_, rfl⟩

theorem witness_GetReportAnswersWithoutChangingState :
    0x05#8 = running.cfg.reportId ∧ 0x04#8 ≠ running.cfg.reportId ∧ 2 < payloadLen running.cfg.variant
      ∧ payloadLen running.cfg.variant ≤ 3 ∧ 4 < nEnc running.cfg.variant := by decide

theorem witness_UnrecognisedReportIdIsANormalOutcome : 0x85#8 ≠ running.cfg.reportId := by decide

theorem witness_ResetClearsEveryRegister_v21 : 4 < nEnc running.cfg.variant := by decide
theorem witness_ResetClearsEveryRegister_v6 : (at6 (snap6 0)).wf ∧ (at6 (snap6 0)).cfg.variant = .v6 := by decide

theorem witness_ResetDiscardsTheCommandWord :
    (at21 [3, 1, 2, 0, 3] quiet21 [⟨⟨true, 0x100#10⟩, quiet21⟩]).queue = ⟨⟨true, 0x100#10⟩, quiet21⟩ :: []
      ∧ 4 < nEnc (at21 [3, 1, 2, 0, 3] quiet21 [⟨⟨true, 0x100#10⟩, quiet21⟩]).cfg.variant := by decide

theorem witness_AccessRightsToTheRegisters :
    4 < nEnc running.cfg.variant ∧ Instr.getReport 0x05#8 = .getReport running.cfg.reportId
      ∧ Instr.setReport 0#8 ≠ .tick ∧ Instr.setReport 0#8 ≠ .reset
      ∧ ∃ rid, Instr.setReport 0#8 = .setReport rid := ⟨by decide, rfl, by decide, by decide, _, rfl⟩

theorem witness_WholePayloadOrNothing_match :
    (∃ t, exec (.getReport 0x05#8) running = .next t)
      ∧ Instr.getReport 0x05#8 = .getReport running.cfg.reportId ∧ 2 < payloadLen running.cfg.variant
      ∧ payloadLen running.cfg.variant ≤ 3 := ⟨⟨_, rfl⟩, rfl, by decide, by decide⟩
theorem witness_WholePayloadOrNothing_other :
    (∃ t, exec .tick running = .next t) ∧ Instr.tick ≠ .getReport running.cfg.reportId := ⟨⟨_, rfl⟩, by decide⟩

theorem witness_EveryCommandReturnsOneResult : ∃ t, exec .tick running = .next t := ⟨_, rfl⟩

/-- States that agree on encoder 4 alone. -/
theorem witness_RegistersAreIndependent :
    let s := at21 [0, 0, 0, 0, 2] (snap 0 0 [0, 0, 0, 0, 3]) []
    let s' := at21 [1, 1, 1, 1, 2] (snap 0x3F 0x1F [2, 2, 2, 2, 3]) []
    4 < nEnc s.cfg.variant ∧ s'.cfg = s.cfg ∧ s'.block.prevAt 4 = s.block.prevAt 4
      ∧ lineAt s'.lines.a 4 = lineAt s.lines.a 4 ∧ lineAt s'.lines.b 4 = lineAt s.lines.b 4 := by decide

theorem witness_MismatchReadsNeitherLinesNorRegisters : 0x85#8 ≠ running.cfg.reportId := by decide

theorem witness_SixButtonVariantSeesRegularButtonsOnly :
    (at6 (snap6 0x3F)).cfg.variant = .v6
      ∧ ({ snap6 0x3F with ebtn := bits 5 0x1F } : Snapshot).btn = (at6 (snap6 0x3F)).lines.btn
      ∧ 5 < 6 ∧ 6 ≤ 6 := by decide

theorem witness_PackGivesEverySourceOneBit :
    (Source.ccw 4).configured .v21 ∧ (Source.btn 5).configured .v6 ∧ 20 < width .v21 ∧ 5 < width .v6 :=
  ⟨by simp [Source.configured, nEnc], by simp [Source.configured, nReg], by decide, by decide⟩

theorem witness_BitLayoutOfTheTwentyOneButtonVariant : running.cfg.variant = .v21 ∧ 5 < 6 ∧ 4 < 5 := by decide

theorem witness_VectorBitGoesToItsByte : 20 < width .v21 ∧ 5 < width .v6 := by decide

theorem witness_PaddingBitsAreZero :
    (width .v21 ≤ 21 ∧ 23 < 8 * payloadLen .v21) ∧ width .v6 ≤ 6 ∧ 31 < 8 * payloadLen .v6 := by decide

theorem witness_PayloadIsTheLittleEndianVector :
    (0x1FFFFF#21).toNat < 2 ^ width .v21 ∧ 2 < payloadLen .v21
      ∧ (0x3F#21).toNat < 2 ^ width .v6 ∧ 3 < payloadLen .v6 := by decide

theorem witness_ActiveIsAnyBitOfTheVector :
    4 < nEnc running.cfg.variant
      ∧ pulseOf (at21 [0, 0, 0, 0, 2] quiet21 []).block quiet21 4 ≠ .none := by decide

theorem witness_NeverBothPulsesOfAnEncoder : 4 < nEnc .v21 := by decide

theorem witness_PulseBitsFollowTheTransitionSets : 4 < nEnc running.cfg.variant := by decide

theorem witness_PulseBitsFollowTheClosedForm : 4 < nEnc running.cfg.variant := by decide

theorem witness_ExactlyOneChangedLineGivesExactlyOnePulse_one :
    let s := at21 [0, 0, 0, 0, 0] (snap 0 0 [0, 0, 0, 0, 2]) []
    4 < nEnc s.cfg.variant
      ∧ ((s.block.prevAt 4).getLsbD 1 ≠ lineAt s.lines.a 4 ↔ (s.block.prevAt 4).getLsbD 0 = lineAt s.lines.b 4) := by
  decide
theorem witness_ExactlyOneChangedLineGivesExactlyOnePulse_both :
    let s := at21 [0, 0, 0, 0, 0] (snap 0 0 [0, 0, 0, 0, 3]) []
    4 < nEnc s.cfg.variant
      ∧ ((s.block.prevAt 4).getLsbD 1 = lineAt s.lines.a 4 ↔ (s.block.prevAt 4).getLsbD 0 = lineAt s.lines.b 4) := by
  decide

theorem witness_BothLinesChangedGivesNoPulseAndCommits :
    let s := at21 [0, 0, 0, 0, 1] (snap 0 0 [0, 0, 0, 0, 2]) []
    4 < nEnc s.cfg.variant ∧ cur s.lines 4 = ~~~(s.block.prevAt 4) := by decide

theorem witness_EveryRegisterValueIsDistinguishable :
    let s := at21 [0, 0, 0, 0, 0] quiet21 []
    let s' := at21 [0, 0, 0, 0, 3] quiet21 []
    4 < nEnc s.cfg.variant ∧ s'.cfg = s.cfg ∧ s'.block.prevAt 4 ≠ s.block.prevAt 4 := by decide

/-- A queue with a TICK, then host traffic. -/
def tickThenTraffic : State :=
  at21 [0, 0, 0, 0, 0] quiet21
    [give .tick (snap 0 0 [0, 0, 0, 0, 2]), give (.getReport 0x05#8) (snap 0 0 [0, 0, 0, 0, 3]), give .nop quiet21]

theorem witness_RegisterHoldsTheLevelOfTheLastTick_tick :
    4 < nEnc tickThenTraffic.cfg.variant
      ∧ tickThenTraffic.queue = [] ++ give .tick (snap 0 0 [0, 0, 0, 0, 2])
          :: [give (.getReport 0x05#8) (snap 0 0 [0, 0, 0, 0, 3]), give .nop quiet21]
      ∧ (∀ y ∈ [give (.getReport 0x05#8) (snap 0 0 [0, 0, 0, 0, 3]), give .nop quiet21], quiet y.command = true)
      ∧ (give .tick (snap 0 0 [0, 0, 0, 0, 2])).command = .tick := by decide
theorem witness_RegisterHoldsTheLevelOfTheLastTick_reset :
    (at21 [3, 3, 3, 3, 3] quiet21 [give .reset quiet21]).queue = [] ++ give .reset quiet21 :: []
      ∧ (∀ y ∈ ([] : List Input), quiet y.command = true) ∧ (give .reset quiet21).command = .reset := by decide
theorem witness_RegisterHoldsTheLevelOfTheLastTick_powerOn :
    (at21 [0, 0, 0, 0, 0] quiet21 [give .nop quiet21]).block = BlockState.powerOn .v21
      ∧ ∀ y ∈ (at21 [0, 0, 0, 0, 0] quiet21 [give .nop quiet21]).queue, quiet y.command = true := by decide

theorem witness_HostTrafficIsTransparentToTicks :
    tickThenTraffic.queue = [give .tick (snap 0 0 [0, 0, 0, 0, 2])]
          ++ [give (.getReport 0x05#8) (snap 0 0 [0, 0, 0, 0, 3])] ++ [give .nop quiet21]
      ∧ ∀ x ∈ [give (.getReport 0x05#8) (snap 0 0 [0, 0, 0, 0, 3])], quiet x.command = true := by decide

theorem witness_UnchangedLinesGiveNoSecondPulse :
    let x := give .tick (snap 0 0 [0, 0, 0, 0, 2])
    let g := give (.getReport 0x05#8) quiet21
    let y := give .tick (snap 0x3F 0 [1, 1, 1, 1, 2])
    (at21 [0, 0, 0, 0, 0] quiet21 [x, g, y]).queue = x :: [g] ++ [y]
      ∧ x.command = .tick ∧ y.command = .tick ∧ (∀ z ∈ [g], ∃ rid, z.command = .getReport rid)
      ∧ cur y.snap 4 = cur x.snap 4 ∧ 4 < nEnc cfg21.variant := by
  refine ⟨by decide, by decide, by decide, fun z hz => ⟨0x05#8, ?_⟩, by decide, by decide⟩
  rw [List.mem_singleton.mp hz]
  decide

/-- V-H1 moved to encoder 4: three CW steps within one TICK. -/
theorem witness_AliasingByStepsModFour :
    let s := at21 [0, 0, 0, 0, 0] (snap 0 0 [0, 0, 0, 0, 2]) []
    4 < nEnc s.cfg.variant ∧ cur s.lines 4 = cwNext^[3] (s.block.prevAt 4)
      ∧ cur s.lines 4 = ccwNext^[1] (s.block.prevAt 4) := by decide

theorem witness_OneStepPerTickIsReportedExactly :
    let s := at21 [0, 0, 0, 0, 0] quiet21
      [give .tick (snap 0 0 [0, 0, 0, 0, 1]), give .tick (snap 0 0 [0, 0, 0, 0, 1]), give .tick quiet21]
    4 < nEnc s.cfg.variant ∧ (∀ x ∈ s.queue, x.command = .tick)
      ∧ s.queue.map (fun x => cur x.snap 4) = trail (s.block.prevAt 4) [.cw, .stay, .ccw] := by decide

theorem witness_FirstTickAfterResetComparesAgainstZero :
    let r := give .reset quiet21
    let x := give .tick (snap 0 0 [0, 0, 0, 0, 2])
    4 < nEnc cfg21.variant ∧ (at21 [3, 3, 3, 3, 3] quiet21 [r, x]).queue = r :: x :: []
      ∧ r.command = .reset ∧ x.command = .tick
      ∧ (at21 [0, 0, 0, 0, 0] quiet21 []).block = BlockState.powerOn cfg21.variant := by decide

theorem witness_FullClockwiseCycleGivesFourPulses :
    let x₁ := give .tick (snap 0 0 [1, 0, 0, 0, 0])
    let x₂ := give .tick (snap 0 0 [3, 0, 0, 0, 0])
    let x₃ := give .tick (snap 0 0 [2, 0, 0, 0, 0])
    let x₄ := give .tick (snap 0 0 [0, 0, 0, 0, 0])
    let s := at21 [0, 0, 0, 0, 0] quiet21 [x₁, x₂, x₃, x₄]
    0 < nEnc s.cfg.variant ∧ s.queue = [x₁, x₂, x₃, x₄] ∧ (∀ x ∈ s.queue, x.command = .tick)
      ∧ cur x₁.snap 0 = cwNext (s.block.prevAt 0) ∧ cur x₂.snap 0 = cwNext (cur x₁.snap 0)
      ∧ cur x₃.snap 0 = cwNext (cur x₂.snap 0) ∧ cur x₄.snap 0 = cwNext (cur x₃.snap 0) := by decide

theorem witness_HeldButtonsStayAndPulsesVanish :
    10 < nReg running.cfg.variant + nEbtn running.cfg.variant
      ∧ nReg running.cfg.variant + nEbtn running.cfg.variant ≤ 11 := by decide

theorem witness_LowLinesReadAsserted :
    let levels : Snapshot := { btn := bits 6 0b011111, ebtn := bits 5 0b01111, a := bits 5 0b01111, b := bits 5 0x1F }
    levels.wellFormed (at21 [0, 0, 0, 0, 0] (sampleLevels levels) []).cfg.variant = true
      ∧ (at21 [0, 0, 0, 0, 0] (sampleLevels levels) []).lines = sampleLevels levels := by decide

theorem witness_TickDecodesPacksAndCommits : 4 < nEnc running.cfg.variant := by decide

end Sys2Proof.Tests
end

section
/-! What every step keeps, every run keeps; and the configuration, which every step keeps (00_scope.md R5). -/

namespace Sys2Proof.Machine

/-- The induction over the steps of a run, for any property of states. -/
theorem run_invariant {P : State → Prop} (keeps : ∀ s t, P s → step s = .next t → P t) :
    ∀ (n : Nat) (s t : State), P s → Host.Core.run Sys2Proof.core n s = .next t → P t
  | 0, _, _, hs, h => Host.Outcome.next.inj h ▸ hs
  | n + 1, s, t, hs, h => by
    obtain ⟨u, hu⟩ := step_next s
    rw [run_succ n hu] at h
    exact run_invariant keeps n u t (keeps s u hs hu) h

theorem step_cfg {s t : State} (h : step s = .next t) : t.cfg = s.cfg := by
  obtain ⟨-, rfl⟩ | ⟨inp, rest, -, rfl⟩ := step_cases h
  · rfl
  · rw [respond_cfg, present_cfg]

/-- Settles O13: every step keeps the configuration, so every run does, by induction on its steps. -/
theorem noRunChangesTheConfiguration : Obligations.NoRunChangesTheConfiguration := by
  intro n s t h
  have keeps (u v : State) (hu : u.cfg = s.cfg) (huv : step u = .next v) : v.cfg = s.cfg :=
    (step_cfg huv).trans hu
  exact run_invariant keeps n s t rfl h

end Sys2Proof.Machine
end

section
/-! The registers `prev[k]` (10_state.md): what a command leaves in one of them, and the shape every step keeps. -/

namespace Sys2Proof.Machine

/-- Every command leaves one register per encoder (10_state.md R17). -/
theorem commandResult_prev_length {cfg : Config} {st : BlockState} (S : Snapshot) (i : Instr)
    (h : st.prev.length = nEnc cfg.variant) :
    (commandResult cfg st S i).1.prev.length = nEnc cfg.variant := by
  rw [commandResult_block]
  split_ifs
  · simp
  · simp
  · exact h

/-- What a command leaves in one register (10_state.md R19). -/
theorem commandResult_prevAt (cfg : Config) (st : BlockState) (S : Snapshot) (i : Instr) {k : Nat}
    (hk : k < nEnc cfg.variant) :
    (commandResult cfg st S i).1.prevAt k =
      if i = .tick then cur S k else if i = .reset then 0b00#2 else st.prevAt k := by
  rw [commandResult_block]
  split_ifs
  · exact prevAt_map _ _ k hk
  · exact prevAt_map _ _ k hk
  · rfl

/-- A command other than TICK and RESET leaves the registers. -/
theorem commandResult_block_of_quiet (cfg : Config) (st : BlockState) (S : Snapshot) {i : Instr}
    (h : quiet i = true) : (commandResult cfg st S i).1 = st := by
  rw [commandResult_block, if_neg, if_neg] <;> (rintro rfl; cases h)

theorem quiet_of_ne {i : Instr} (ht : i ≠ .tick) (hr : i ≠ .reset) : quiet i = true := by
  cases i with
  | tick => exact absurd rfl ht
  | reset => exact absurd rfl hr
  | nop => rfl
  | getReport rid => rfl
  | setReport rid => rfl

/-- Settles O11: the registers keep their number, the snapshot of the lines comes out of the queue, and writing
keeps the buffer's canonical form. -/
theorem everyStepKeepsTheShape : Obligations.EveryStepKeepsTheShape := by
  intro s t hs h
  obtain ⟨-, rfl⟩ | ⟨inp, rest, hq, rfl⟩ := step_cases h
  · exact hs
  · obtain ⟨hprev, -, hqueue, hbuf⟩ := hs
    rw [hq, List.forall_mem_cons] at hqueue
    obtain ⟨hsnap, hrest⟩ := hqueue
    exact ⟨commandResult_prev_length inp.snap inp.command hprev, hsnap, hrest, writeAll_wf _ _ hbuf⟩

theorem tick_pulseBits (cfg : Config) (st : BlockState) (S : Snapshot) {k : Nat} (hk : k < nEnc cfg.variant) :
    (commandResult cfg st S .tick).2.pulseBits cfg.variant k =
      (pulseOf st S k == .cw, pulseOf st S k == .ccw) :=
  pulseBits_eq _ st S k hk _ (by rw [commandResult, tickCmd_eq, Output.vector])

theorem getReport_pulseBits (cfg : Config) (st : BlockState) (S : Snapshot) {k : Nat}
    (hk : k < nEnc cfg.variant) :
    (commandResult cfg st S (.getReport cfg.reportId)).2.pulseBits cfg.variant k =
      (pulseOf st S k == .cw, pulseOf st S k == .ccw) :=
  pulseBits_eq _ st S k hk _ (by rw [commandResult, getReportCmd_match, Output.vector, Option.getD_some])

/-- NOP and SET_REPORT leave the registers as they are and give no output, whatever the registers hold. -/
theorem commandResult_nop_or_setReport {i : Instr} (h : i = .nop ∨ ∃ rid, i = .setReport rid) (cfg : Config)
    (st : BlockState) (S : Snapshot) : commandResult cfg st S i = (st, .none) := by
  obtain rfl | ⟨rid, rfl⟩ := h <;> rfl

/-- Settles O21: each clause is the rule about the command it speaks of. -/
theorem accessRightsToTheRegisters : Obligations.AccessRightsToTheRegisters := by
  intro s i
  refine ⟨_, _, exec_eq i s, rfl, ?tick, ?getReport, ?reset, ?others, ?unread⟩
  case tick =>
    rintro rfl k hk
    exact ⟨commandResult_prevAt s.cfg s.block s.lines .tick hk, tick_pulseBits s.cfg s.block s.lines hk⟩
  case getReport =>
    rintro rfl
    exact ⟨commandResult_block_of_quiet _ _ _ rfl, fun k hk => getReport_pulseBits s.cfg s.block s.lines hk⟩
  case reset =>
    rintro rfl k hk
    exact commandResult_prevAt s.cfg s.block s.lines .reset hk
  case others =>
    intro ht hr
    exact commandResult_block_of_quiet _ _ _ (quiet_of_ne ht hr)
  case unread =>
    intro hi st
    refine ⟨_, exec_eq i _, ?_⟩
    simp only [respond_block, respond_outputs, respond_buf, commandResult_nop_or_setReport hi, and_self]

/-- Settles O24: the register a command leaves is the sampled level, `00`, or the register it found, and each is
the same in both states. -/
theorem registersAreIndependent : Obligations.RegistersAreIndependent := by
  intro s s' i k hk hcfg hprev ha hb
  have hcur : cur s'.lines k = cur s.lines k := by rw [cur, ha, hb, cur]
  refine ⟨_, _, exec_eq i s, exec_eq i s', ?_⟩
  rw [respond_block, respond_block, hcfg, commandResult_prevAt _ _ _ _ hk, commandResult_prevAt _ _ _ _ hk,
    hcur, hprev]

end Sys2Proof.Machine
end

section
/-! The registers are observable (10_state.md R26): a snapshot that tells two values of a register apart. -/

namespace Sys2Proof.Machine

/-- The snapshot with every encoder of the variant at one level and every button released. -/
def encodersAt (v : Variant) (l : Level) : Snapshot :=
  { releasedLines v with
    a := List.replicate (nEnc v) (l.getLsbD 1)
    b := List.replicate (nEnc v) (l.getLsbD 0) }

theorem encodersAt_wellFormed (v : Variant) (l : Level) : (encodersAt v l).wellFormed v = true := by
  simp [encodersAt, releasedLines, Snapshot.wellFormed]

theorem concatAB_bits : ∀ l : Level, concatAB (l.getLsbD 1) (l.getLsbD 0) = l := by decide

theorem cur_encodersAt (v : Variant) (l : Level) {k : Nat} (hk : k < nEnc v) : cur (encodersAt v l) k = l := by
  simp only [cur, encodersAt, lineAt, List.getD_replicate _ hk, concatAB_bits]

/-- Each level is reached by a CW transition from one level alone (40_quadrature_decoder.md R58). -/
theorem classify_cwNext_eq_cw_iff : ∀ p q : Level, classify q (cwNext p) = .cw ↔ q = p := by decide

/-- Settles O40: with every encoder one CW step on from the first state's register, that state alone gives CW. -/
theorem everyRegisterValueIsDistinguishable : Obligations.EveryRegisterValueIsDistinguishable := by
  intro s s' k hk hcfg hne
  have hcur := cur_encodersAt s.cfg.variant (cwNext (s.block.prevAt k)) hk
  refine ⟨encodersAt s.cfg.variant (cwNext (s.block.prevAt k)), encodersAt_wellFormed _ _, _, _, _, _,
    exec_eq .tick _, exec_eq .tick _, rfl, rfl, fun heq => hne ?_⟩
  simp only [hcfg, tick_pulseBits _ _ _ hk, pulseOf, hcur, Prod.mk.injEq, Bool.beq_eq_decide_eq,
    decide_eq_decide, classify_cwNext_eq_cw_iff] at heq
  obtain ⟨hcw, -⟩ := heq
  exact hcw.mp trivial

end Sys2Proof.Machine
end

section
/-! Runs of the caller's commands, command by command, and what stands in a register at their end
(10_state.md R18). -/

namespace Sys2Proof.Machine

theorem runAll_nil {s : State} (h : s.queue = []) : runAll s = .next s := by
  rw [runAll, h]
  rfl

theorem runAll_cons {s : State} {inp : Input} {rest : List Input} (h : s.queue = inp :: rest) :
    runAll s = runAll ((s.present inp.snap rest).respond (commandResult s.cfg s.block inp.snap inp.command)) := by
  rw [runAll, h, List.length_cons, run_succ _ (step_command s inp rest h)]
  rfl

/-- The run of a queue passes through a state in which only its second part is still to come. -/
theorem runAll_append {post : List Input} (pre : List Input) {s : State} (h : s.queue = pre ++ post) :
    ∃ u, runAll s = runAll u ∧ u.queue = post ∧ u.cfg = s.cfg := by
  induction pre generalizing s with
  | nil => exact ⟨s, rfl, h, rfl⟩
  | cons inp pre ih =>
    obtain ⟨u, hrun, hqueue, hcfg⟩ := ih (respond_queue (s.present inp.snap (pre ++ post)) _)
    exact ⟨u, (runAll_cons h).trans hrun, hqueue, hcfg⟩

/-- A run without TICK and RESET leaves the registers. -/
theorem runAll_of_quiet {s : State} (h : ∀ y ∈ s.queue, quiet y.command = true) :
    ∃ t, runAll s = .next t ∧ t.block = s.block := by
  induction hq : s.queue generalizing s with
  | nil => exact ⟨s, runAll_nil hq, rfl⟩
  | cons inp rest ih =>
    rw [hq, List.forall_mem_cons] at h
    obtain ⟨hinp, hrest⟩ := h
    obtain ⟨t, hrun, hblock⟩ := ih (s := (s.present inp.snap rest).respond
      (commandResult s.cfg s.block inp.snap inp.command)) hrest rfl
    rw [respond_block, commandResult_block_of_quiet _ _ _ hinp] at hblock
    exact ⟨t, (runAll_cons hq).trans hrun, hblock⟩

/-- A run that ends with `x` and then commands other than TICK and RESET ends with the registers `x` leaves. -/
theorem runAll_last {s : State} {pre post : List Input} {x : Input} (hq : s.queue = pre ++ x :: post)
    (hpost : ∀ y ∈ post, quiet y.command = true) :
    ∃ t st, runAll s = .next t ∧ t.block = (commandResult s.cfg st x.snap x.command).1 := by
  obtain ⟨u, hrun, hqueue, hcfg⟩ := runAll_append pre hq
  obtain ⟨t, ht, hblock⟩ := runAll_of_quiet (s := (u.present x.snap post).respond
    (commandResult u.cfg u.block x.snap x.command)) hpost
  rw [respond_block, hcfg] at hblock
  exact ⟨t, u.block, (hrun.trans (runAll_cons hqueue)).trans ht, hblock⟩

/-- Every register is `00` at power-on (70_reset_and_hazards.md R106). -/
theorem powerOn_prevAt (v : Variant) {k : Nat} (hk : k < nEnc v) : (BlockState.powerOn v).prevAt k = 0b00#2 :=
  List.getD_replicate _ hk

/-- Settles O41: after the last TICK or RESET, as after power-on, nothing writes a register. -/
theorem registerHoldsTheLevelOfTheLastTick : Obligations.RegisterHoldsTheLevelOfTheLastTick := by
  intro s k hk
  constructor
  · intro pre x post hq hpost
    obtain ⟨t, st, hrun, hblock⟩ := runAll_last hq hpost
    have hprev := commandResult_prevAt s.cfg st x.snap x.command hk
    rw [← hblock] at hprev
    refine ⟨t, hrun, fun hx => ?_, fun hx => ?_⟩
    · rw [hprev, if_pos hx]
    · rw [hprev, hx, if_neg (by decide), if_pos rfl]
  · intro hpow hquiet
    obtain ⟨t, hrun, hblock⟩ := runAll_of_quiet hquiet
    exact ⟨t, hrun, by rw [hblock, hpow, powerOn_prevAt _ hk]⟩

end Sys2Proof.Machine
end

section
/-! The payload in memory (20_memory.md): which bit and which byte of the vector stands where, and what reaches
the caller's buffer. -/

namespace Sys2Proof.Machine

/-- Settles O30: SERIALIZE gives the vector's payload, which has a byte for every position below W. -/
theorem vectorBitGoesToItsByte : Obligations.VectorBitGoesToItsByte := by
  intro v vec i hi
  have hw : width v ≤ 8 * payloadLen v := by cases v <;> decide
  obtain ⟨hlen, hbit, -⟩ := serialize_payloadOf v vec
  exact ⟨by omega, hbit i hi⟩

/-- On a vector of W bits the cut at W takes nothing away. -/
theorem payloadBit_of_lt {v : Variant} {vec : ButtonVec} (h : vec.toNat < 2 ^ width v) (i : Nat) :
    payloadBit v vec i = vec.getLsbD i := by
  by_cases hi : i < width v
  · simp [payloadBit, hi]
  · have hz : vec.getLsbD i = false :=
      Nat.testBit_lt_two_pow (h.trans_le (Nat.pow_le_pow_right (by decide) (not_lt.mp hi)))
    simp [payloadBit, hi, hz]

/-- Byte `j` is `vec[8j+7:8j]` (20_memory.md R36). -/
theorem payloadByte_of_lt {v : Variant} {vec : ButtonVec} (h : vec.toNat < 2 ^ width v) (j : Nat) :
    payloadByte v vec j = (vec >>> (8 * j)).setWidth 8 := by
  refine BitVec.eq_of_getLsbD_eq fun b hb => ?_
  rw [payloadByte_bit v vec j b hb, payloadBit_of_lt h]
  simp [hb]

/-- A byte wholly at or above W is 0, whatever the vector. -/
theorem payloadByte_eq_zero {v : Variant} {j : Nat} (h : width v ≤ 8 * j) (vec : ButtonVec) :
    payloadByte v vec j = 0x00#8 := by
  refine BitVec.eq_of_getLsbD_eq fun b hb => ?_
  have hge : ¬ 8 * j + b < width v := by omega
  simp [payloadByte_bit v vec j b hb, payloadBit, hge]

theorem serialize_getD (v : Variant) (vec : ButtonVec) {j : Nat} (hj : j < payloadLen v) :
    (serialize v vec).getD j 0 = payloadByte v vec j := by
  simp [serialize, List.getD_eq_getElem?_getD, hj]

/-- The lowest `n` base-256 digits of a number, put together again. -/
theorem foldr_range_digits (n x : Nat) :
    (List.range n).foldr (fun j m => x / 256 ^ j % 256 + 256 * m) 0 = x % 256 ^ n := by
  induction n generalizing x with
  | zero => simp [Nat.mod_one]
  | succ n ih =>
    have hdiv (j : Nat) : x / 256 ^ (j + 1) = x / 256 / 256 ^ j := by rw [Nat.pow_succ', Nat.div_div_eq_div_mul]
    rw [List.range_succ_eq_map, List.foldr_cons, List.foldr_map]
    simp only [Nat.succ_eq_add_one, hdiv, ih]
    rw [Nat.pow_zero, Nat.div_one, Nat.pow_succ', Nat.mod_mul]

/-- A byte of a vector is a base-256 digit of its number. -/
theorem toNat_byte (vec : ButtonVec) (j : Nat) :
    ((vec >>> (8 * j)).setWidth 8).toNat = vec.toNat / 256 ^ j % 256 := by
  rw [BitVec.toNat_setWidth, BitVec.toNat_ushiftRight, Nat.shiftRight_eq_div_pow, Nat.pow_mul]

/-- The payload as one little-endian integer is the vector (20_memory.md R36). -/
theorem serialize_littleEndian {v : Variant} {vec : ButtonVec} (h : vec.toNat < 2 ^ width v) :
    (serialize v vec).foldr (fun x n => x.toNat + 256 * n) 0 = vec.toNat := by
  have hw : 2 ^ width v ≤ 256 ^ payloadLen v := by cases v <;> decide
  simp only [serialize, List.foldr_map, payloadByte_of_lt h, toNat_byte, foldr_range_digits]
  exact Nat.mod_eq_of_lt (h.trans_le hw)

/-- Settles O32: each byte is eight bits of the vector, and so a base-256 digit of its number; V6's bytes 1 to 3
lie above W. -/
theorem payloadIsTheLittleEndianVector : Obligations.PayloadIsTheLittleEndianVector := by
  intro v vec h
  refine ⟨fun j hj => ?_, serialize_littleEndian h, ?_⟩
  · rw [serialize_getD v vec hj, payloadByte_of_lt h]
  · rintro rfl
    have hbytes : serialize .v6 vec =
        [payloadByte .v6 vec 0, payloadByte .v6 vec 1, payloadByte .v6 vec 2, payloadByte .v6 vec 3] := rfl
    rw [hbytes, payloadByte_of_lt h, payloadByte_eq_zero (by decide), payloadByte_eq_zero (by decide),
      payloadByte_eq_zero (by decide), Nat.mul_zero, BitVec.ushiftRight_zero]

/-- Only GET_REPORT for the configured ID writes to the caller's buffer (20_memory.md R32, R38). -/
theorem commandResult_writes_of_ne {cfg : Config} {i : Instr} (h : i ≠ .getReport cfg.reportId) (st : BlockState)
    (S : Snapshot) : (commandResult cfg st S i).2.writes = [] := by
  cases i with
  | getReport rid =>
    have hrid : rid ≠ cfg.reportId := fun hr => h (congrArg Instr.getReport hr)
    rw [commandResult, getReportCmd_mismatch cfg st rid S hrid, Output.writes]
  | nop => rfl
  | tick => rfl
  | setReport rid => rfl
  | reset => rfl

/-- Settles O22: GET_REPORT for the configured ID hands out the `BufWrite`s of a whole payload, and every other
command hands out none. -/
theorem wholePayloadOrNothing : Obligations.WholePayloadOrNothing := by
  intro s t i h
  rw [exec_eq] at h
  obtain rfl := Host.Outcome.next.inj h
  constructor
  · rintro rfl
    rw [commandResult, getReportCmd_match]
    refine ⟨_, _, respond_outputs _ _, serialize_payloadOf _ _, fun a ha => ?_, fun a ha => ?_⟩ <;>
      rw [respond_buf, Output.writes, read_bufWrites, serialize_length]
    · exact if_pos ha
    · exact if_neg (not_lt.mpr ha)
  · intro hi a
    rw [respond_buf, commandResult_writes_of_ne hi]
    rfl

end Sys2Proof.Machine
end

section
/-! Decoding and encoding (30_encoding.md §1, §5): the two fields of a command word, and the commands they give. -/

namespace Sys2Proof

/-! ### The fields -/

theorem cmdField_append (c : BitVec 2) (rid : ReportId) : cmdField (c ++ rid) = c :=
  BitVec.extractLsb'_append_eq_left

theorem ridField_append (c : BitVec 2) (rid : ReportId) : ridField (c ++ rid) = rid :=
  BitVec.extractLsb'_append_eq_right

theorem cmdField_append_ridField (w : CmdWord) : cmdField w ++ ridField w = w :=
  (BitVec.extractLsb'_append_extractLsb'_eq_extractLsb' (start₁ := 0) rfl).trans BitVec.extractLsb'_eq_self

/-- Bits 9:8 alone, which clears the `rid` field. -/
theorem and_cmdMask (w : CmdWord) : w &&& 0x300#10 = cmdField w ++ 0x00#8 := by
  conv_lhs => rw [← cmdField_append_ridField w, show 0x300#10 = 0b11#2 ++ 0x00#8 from rfl]
  rw [BitVec.and_append, BitVec.and_zero, show 0b11#2 = BitVec.allOnes 2 from rfl, BitVec.and_allOnes]

theorem cmdField_congr {w w' : CmdWord} (h9 : w'.getLsbD 9 = w.getLsbD 9) (h8 : w'.getLsbD 8 = w.getLsbD 8) :
    cmdField w' = cmdField w := by
  obtain ⟨hw9, hw8⟩ := (cmdField_eq_iff w _).mp rfl
  exact (cmdField_eq_iff w' _).mpr ⟨h9.trans hw9, h8.trans hw8⟩

/-- The four command words (30_encoding.md R46). -/
theorem decodeWord_cases (w : CmdWord) :
    (cmdField w = 0b00#2 ∧ decodeWord w = .nop)
      ∨ (cmdField w = 0b01#2 ∧ decodeWord w = .tick)
      ∨ (cmdField w = 0b10#2 ∧ decodeWord w = .getReport (ridField w))
      ∨ (cmdField w = 0b11#2 ∧ decodeWord w = .setReport (ridField w)) := by
  have hc : ∀ c : BitVec 2, c = 0b00#2 ∨ c = 0b01#2 ∨ c = 0b10#2 ∨ c = 0b11#2 := by decide
  obtain h | h | h | h := hc (cmdField w)
  · exact .inl ⟨h, decodeWord_nop w h⟩
  · exact .inr (.inl ⟨h, decodeWord_tick w h⟩)
  · exact .inr (.inr (.inl ⟨h, decodeWord_getReport w h⟩))
  · exact .inr (.inr (.inr ⟨h, decodeWord_setReport w h⟩))

/-! ### What the assembler writes -/

theorem encode_getReport_word (rid : ReportId) : (encode (.getReport rid)).word = 0b10#2 ++ rid := by
  rw [BitVec.append_def]
  rfl

theorem encode_setReport_word (rid : ReportId) : (encode (.setReport rid)).word = 0b11#2 ++ rid := by
  rw [BitVec.append_def]
  rfl

/-- Decoding undoes encoding. -/
theorem decodePort_encode (i : Instr) : decodePort (encode i) = i := by
  cases i with
  | nop => rfl
  | tick => rfl
  | getReport rid =>
    rw [decodePort_word _ rfl, encode_getReport_word, decodeWord_getReport _ (cmdField_append _ _), ridField_append]
  | setReport rid =>
    rw [decodePort_word _ rfl, encode_setReport_word, decodeWord_setReport _ (cmdField_append _ _), ridField_append]
  | reset => rfl

/-- A row of 16 bits is the command word itself (log 15). -/
theorem decodeTableWord_word (w : CmdWord) : decodeTableWord 16 w.toNat = some (decodeWord w) := by
  simp [decodeTableWord, portOfBits?, portOfBits, w.isLt, decodePort]

/-- Either format's row of bits decodes as the ports it was taken from (log 15). -/
theorem decodeTableWord_port (p : PortWord) :
    (if p.rst then decodeTableWord 8 1 else decodeTableWord 16 p.word.toNat) = some (decodePort p) := by
  cases h : p.rst with
  | true => rw [decodePort_rst p h]; rfl
  | false => rw [decodePort_word p h, if_neg Bool.false_ne_true, decodeTableWord_word]

/-- Settles O1: the word written for a command has the command's `cmd` field and its report ID in `rid`, and the
rows of the table hold the same ports. -/
theorem everyCommandDecodesFromItsEncoding : Obligations.EveryCommandDecodesFromItsEncoding := by
  intro i _
  exact ⟨decodePort_encode i, (decodeTableWord_port (encode i)).trans (congrArg some (decodePort_encode i))⟩

/-- Settles O3, by decoding each word. -/
theorem wordsOfTheSpecDecode : Obligations.WordsOfTheSpecDecode := by
  unfold Obligations.WordsOfTheSpecDecode
  decide

/-- Bit 9 clear: NOP or TICK, which have no operand in the word (30_encoding.md R52). -/
theorem decodeWord_congr {w w' : CmdWord} (hcmd : cmdField w' = cmdField w) (h9 : w.getLsbD 9 = false) :
    decodeWord w' = decodeWord w := by
  obtain ⟨h, hw⟩ | ⟨h, hw⟩ | ⟨h, -⟩ | ⟨h, -⟩ := decodeWord_cases w
  · rw [hw, decodeWord_nop w' (hcmd.trans h)]
  · rw [hw, decodeWord_tick w' (hcmd.trans h)]
  all_goals
    obtain ⟨hone, -⟩ := (cmdField_eq_iff w _).mp h
    exact absurd (h9.symm.trans hone) (by decide)

/-- Assembling what a word decodes to gives the word back, up to the ignored bits of NOP and TICK
(30_encoding.md R52, R55). -/
theorem encode_decodeWord (w : CmdWord) :
    (encode (decodeWord w)).word = if w.getLsbD 9 then w else w &&& 0x300#10 := by
  have hfields := cmdField_append_ridField w
  obtain ⟨h, hw⟩ | ⟨h, hw⟩ | ⟨h, hw⟩ | ⟨h, hw⟩ := decodeWord_cases w <;>
    (obtain ⟨h9, -⟩ := (cmdField_eq_iff w _).mp h; rw [h] at hfields; rw [hw, h9])
  · rw [and_cmdMask, h]; rfl
  · rw [and_cmdMask, h]; rfl
  · rw [encode_getReport_word, hfields]; rfl
  · rw [encode_setReport_word, hfields]; rfl

/-- Settles O2: the four values of the `cmd` field are the four commands, and every command answers a next
state. -/
theorem everyCommandWordIsACommand : Obligations.EveryCommandWordIsACommand := by
  intro w
  refine ⟨?command, fun s => ⟨_, Machine.exec_eq _ s⟩, fun w' h9 h8 hw => ?ignored, encode_decodeWord w⟩
  case command =>
    obtain ⟨-, h⟩ | ⟨-, h⟩ | ⟨-, h⟩ | ⟨-, h⟩ := decodeWord_cases w
    · exact .inl h
    · exact .inr (.inl h)
    · exact .inr (.inr (.inl ⟨_, h⟩))
    · exact .inr (.inr (.inr ⟨_, h⟩))
  case ignored => exact decodeWord_congr (cmdField_congr h9 h8) hw

end Sys2Proof
end

section
/-! The operand `rid` and the result record (30_encoding.md R48, R51): what each command hands out. -/

namespace Sys2Proof.Machine

/-- Words that differ in the `rid` bits alone have the same effect, unless they are GET_REPORT's
(30_encoding.md R48). -/
theorem exec_decodeWord_congr {w w' : CmdWord} (hcmd : cmdField w' = cmdField w) (hne : cmdField w ≠ 0b10#2)
    (s : State) : exec (decodeWord w') s = exec (decodeWord w) s := by
  obtain ⟨h, hw⟩ | ⟨h, hw⟩ | ⟨h, -⟩ | ⟨h, hw⟩ := decodeWord_cases w
  · rw [hw, decodeWord_nop w' (hcmd.trans h)]
  · rw [hw, decodeWord_tick w' (hcmd.trans h)]
  · exact absurd h hne
  · rw [hw, decodeWord_setReport w' (hcmd.trans h)]; rfl

theorem payloadLen_ne_zero (v : Variant) : payloadLen v ≠ 0 := by cases v <;> decide

/-- GET_REPORT hands out a report, whose length tells whether the report ID is the configured one. -/
theorem getReportCmd_report (cfg : Config) (st : BlockState) (rid : ReportId) (S : Snapshot) :
    ∃ len vec ws, (getReportCmd cfg st rid S).2 = .report len vec ws
      ∧ (len = payloadLen cfg.variant ↔ rid = cfg.reportId) ∧ (len = 0 ↔ rid ≠ cfg.reportId) := by
  have hL := payloadLen_ne_zero cfg.variant
  by_cases h : rid = cfg.reportId
  · rw [h, getReportCmd_match]
    exact ⟨_, _, _, rfl, iff_of_true rfl rfl, iff_of_false hL (not_not_intro rfl)⟩
  · rw [getReportCmd_mismatch cfg st rid S h]
    exact ⟨_, _, _, rfl, iff_of_false hL.symm h, iff_of_true rfl h⟩

/-- Settles O4: `rid` reaches the effect of GET_REPORT alone, and there the length tells the two cases apart. -/
theorem reportIdOperandCountsForGetReportOnly : Obligations.ReportIdOperandCountsForGetReportOnly := by
  constructor
  · intro s w w' h9 h8 hbits
    refine exec_decodeWord_congr (cmdField_congr h9 h8) (fun hget => ?_) s
    obtain ⟨hone, hzero⟩ := (cmdField_eq_iff w _).mp hget
    rw [hone, hzero] at hbits
    exact absurd hbits (by decide)
  · intro s rid
    obtain ⟨len, vec, ws, hout, hlen, hzero⟩ := getReportCmd_report s.cfg s.block rid s.lines
    refine ⟨_, len, vec, ws, exec_eq _ s, ?_, hlen, hzero⟩
    rw [respond_outputs, commandResult, hout]

/-! ### The kind of a result -/

/-- NOP, SET_REPORT and RESET alone hand out nothing. -/
theorem commandResult_eq_none_iff (cfg : Config) (st : BlockState) (S : Snapshot) (i : Instr) :
    (commandResult cfg st S i).2 = .none ↔ i = .nop ∨ i = .reset ∨ ∃ rid, i = .setReport rid := by
  cases i with
  | getReport rid =>
    obtain ⟨len, vec, ws, hout, -⟩ := getReportCmd_report cfg st rid S
    simp [commandResult, hout]
  | tick => simp [commandResult, tickCmd]
  | nop => simp [commandResult, nopCmd]
  | setReport rid => simp [commandResult, setReportCmd]
  | reset => simp [commandResult, resetCmd]

theorem commandResult_isTick_iff (cfg : Config) (st : BlockState) (S : Snapshot) (i : Instr) :
    (commandResult cfg st S i).2.isTick = true ↔ i = .tick := by
  cases i with
  | getReport rid =>
    obtain ⟨len, vec, ws, hout, -⟩ := getReportCmd_report cfg st rid S
    simp [commandResult, hout, Output.isTick]
  | tick => simp [commandResult, tickCmd, Output.isTick]
  | nop => simp [commandResult, nopCmd, Output.isTick]
  | setReport rid => simp [commandResult, setReportCmd, Output.isTick]
  | reset => simp [commandResult, resetCmd, Output.isTick]

/-- Settles O23: a command appends its one result and touches neither parameters nor inputs. -/
theorem everyCommandReturnsOneResult : Obligations.EveryCommandReturnsOneResult := by
  intro s t i h
  rw [exec_eq] at h
  obtain rfl := Host.Outcome.next.inj h
  exact ⟨⟨_, respond_outputs _ _, commandResult_eq_none_iff _ _ _ i, commandResult_isTick_iff _ _ _ i⟩,
    rfl, rfl, rfl⟩

/-! ### Legal results -/

/-- The vector of TICK and GET_REPORT is a legal one (40_quadrature_decoder.md R63,
41_button_vector_encoder.md R73). -/
theorem pack_peek_legal (v : Variant) (st : BlockState) (S : Snapshot) :
    LegalVector v (pack v S (peekAll v st S)) :=
  vectorOf_legal (pack_peek_vectorOf v st S)

theorem getReportCmd_legal (cfg : Config) (st : BlockState) (rid : ReportId) (S : Snapshot) :
    (getReportCmd cfg st rid S).2.legal cfg := by
  by_cases h : rid = cfg.reportId
  · rw [h, getReportCmd_match]
    exact .inr ⟨rfl, _, _, rfl, pack_peek_legal _ _ _, serialize_payloadOf _ _, rfl⟩
  · rw [getReportCmd_mismatch cfg st rid S h]
    exact .inl ⟨rfl, rfl, rfl⟩

/-- Every command hands out a legal result (30_encoding.md R51). -/
theorem commandResult_legal (cfg : Config) (st : BlockState) (S : Snapshot) (i : Instr) :
    (commandResult cfg st S i).2.legal cfg := by
  cases i with
  | tick =>
    rw [commandResult, tickCmd_eq]
    exact ⟨pack_peek_legal _ _ _, serialize_payloadOf _ _, rfl, active_iff _⟩
  | getReport rid => exact getReportCmd_legal cfg st rid S
  | nop => trivial
  | setReport rid => trivial
  | reset => trivial

/-- Settles O12: a step appends the legal result of its command to results that stay as they are, under the same
configuration. -/
theorem everyStepKeepsResultsLegal : Obligations.EveryStepKeepsResultsLegal := by
  intro s t hs h
  obtain ⟨-, rfl⟩ | ⟨inp, rest, -, rfl⟩ := step_cases h
  · exact hs
  · intro o ho
    rw [respond_outputs, present_outputs, List.mem_append, List.mem_singleton] at ho
    obtain ho | rfl := ho
    · exact hs o ho
    · exact commandResult_legal s.cfg s.block inp.snap inp.command

end Sys2Proof.Machine
end

section
/-! CLASSIFY (40_quadrature_decoder.md §2, §3) on every ordered pair of levels, and the pulse bits PACK and TICK
make of it. -/

namespace Sys2Proof.Machine

/-- Settles O34: a vector that PACK makes is a vector of its pulses, one per encoder. -/
theorem neverBothPulsesOfAnEncoder : Obligations.NeverBothPulsesOfAnEncoder := by
  intro v S pulses k hk
  obtain ⟨-, hnotBoth⟩ := vectorOf_legal (pack_vectorOf v S pulses)
  exact hnotBoth k hk

/-- The two bits a pulse has in the vector, CW first (41_button_vector_encoder.md R68). -/
def Pulse.bits (p : Pulse) : Bool × Bool := (p == .cw, p == .ccw)

@[simp] theorem bits_none : Pulse.none.bits = (false, false) := rfl
@[simp] theorem bits_cw : Pulse.cw.bits = (true, false) := rfl
@[simp] theorem bits_ccw : Pulse.ccw.bits = (false, true) := rfl

theorem bits_fst_iff (p : Pulse) : p.bits.1 = true ↔ p = .cw := beq_iff_eq
theorem bits_snd_iff (p : Pulse) : p.bits.2 = true ↔ p = .ccw := beq_iff_eq

/-! ### CLASSIFY -/

theorem classify_eq_cw_iff : ∀ p c : Level, classify p c = .cw ↔ (p, c) ∈ cwSet := by decide

theorem classify_eq_ccw_iff : ∀ p c : Level, classify p c = .ccw ↔ (p, c) ∈ ccwSet := by decide

/-- The closed form (40_quadrature_decoder.md R59). -/
theorem classify_closedForm : ∀ p c : Level, classify p c =
    if p ^^^ c = 0b00#2 ∨ p ^^^ c = 0b11#2 then .none
    else if (p.getLsbD 1 ^^ c.getLsbD 0) = true then .cw else .ccw := by decide

/-- One changed line is one pulse (40_quadrature_decoder.md R66). -/
theorem classify_of_one_changed : ∀ p c : Level, (p.getLsbD 1 ≠ c.getLsbD 1 ↔ p.getLsbD 0 = c.getLsbD 0) →
    classify p c = .cw ∨ classify p c = .ccw := by decide

theorem classify_of_none_or_both_changed : ∀ p c : Level,
    (p.getLsbD 1 = c.getLsbD 1 ↔ p.getLsbD 0 = c.getLsbD 0) → classify p c = .none := by decide

theorem classify_self (p : Level) : classify p p = .none := if_pos rfl

theorem classify_not : ∀ p : Level, classify p (~~~p) = .none := by decide

theorem classify_cwNext (p : Level) : classify p (cwNext p) = .cw := (classify_cwNext_eq_cw_iff p p).mpr rfl

theorem cwNext_four : ∀ p : Level, cwNext (cwNext (cwNext (cwNext p))) = p := by decide

/-! ### The sampled level -/

theorem concatAB_bit_one : ∀ a b : Bool, (concatAB a b).getLsbD 1 = a := by decide
theorem concatAB_bit_zero : ∀ a b : Bool, (concatAB a b).getLsbD 0 = b := by decide
theorem concatAB_not : ∀ a b : Bool, concatAB (!a) (!b) = ~~~(concatAB a b) := by decide

/-! ### TICK -/

/-- What TICK does for one encoder: its result has CLASSIFY's bits, and its register takes the sampled level
(40_quadrature_decoder.md R60). -/
theorem exec_tick_encoder (s : State) {k : Nat} (hk : k < nEnc s.cfg.variant) :
    ∃ t o, exec .tick s = .next t ∧ t.outputs = s.outputs ++ [o]
      ∧ o.pulseBits s.cfg.variant k = (classify (s.block.prevAt k) (cur s.lines k)).bits
      ∧ t.block.prevAt k = cur s.lines k :=
  ⟨_, _, exec_eq .tick s, respond_outputs _ _, tick_pulseBits _ _ _ hk, commandResult_prevAt _ _ _ .tick hk⟩

/-- Settles O35: CLASSIFY gives CW on the CW set alone and CCW on the CCW set alone. -/
theorem pulseBitsFollowTheTransitionSets : Obligations.PulseBitsFollowTheTransitionSets := by
  intro s k hk
  obtain ⟨t, o, hexec, hout, hbits, -⟩ := exec_tick_encoder s hk
  refine ⟨t, o, hexec, hout, ?cw, ?ccw⟩
  case cw => rw [hbits, bits_fst_iff]; exact classify_eq_cw_iff _ _
  case ccw => rw [hbits, bits_snd_iff]; exact classify_eq_ccw_iff _ _

/-- Settles O36: the bits of each of the closed form's three outcomes. -/
theorem pulseBitsFollowTheClosedForm : Obligations.PulseBitsFollowTheClosedForm := by
  intro s k hk
  obtain ⟨t, o, hexec, hout, hbits, -⟩ := exec_tick_encoder s hk
  refine ⟨t, o, hexec, hout, ?_⟩
  rw [hbits, classify_closedForm, apply_ite Pulse.bits, apply_ite Pulse.bits, bits_none, bits_cw, bits_ccw]

/-- Settles O37: A and B are the two bits of the sampled level. -/
theorem exactlyOneChangedLineGivesExactlyOnePulse : Obligations.ExactlyOneChangedLineGivesExactlyOnePulse := by
  intro s k hk
  obtain ⟨t, o, hexec, hout, hbits, -⟩ := exec_tick_encoder s hk
  have ha : lineAt s.lines.a k = (cur s.lines k).getLsbD 1 := (concatAB_bit_one _ _).symm
  have hb : lineAt s.lines.b k = (cur s.lines k).getLsbD 0 := (concatAB_bit_zero _ _).symm
  rw [ha, hb]
  refine ⟨t, o, hexec, hout, fun hone => ?one, fun hnone => ?none⟩
  case one =>
    obtain h | h := classify_of_one_changed _ _ hone
    · exact .inl (by rw [hbits, h, bits_cw])
    · exact .inr (by rw [hbits, h, bits_ccw])
  case none => rw [hbits, classify_of_none_or_both_changed _ _ hnone, bits_none]

/-- Settles O38: CLASSIFY gives none on complementary levels, and the commit does not look at the pulse. -/
theorem bothLinesChangedGivesNoPulseAndCommits : Obligations.BothLinesChangedGivesNoPulseAndCommits := by
  intro s k hk hboth
  obtain ⟨t, o, hexec, hout, hbits, hprev⟩ := exec_tick_encoder s hk
  exact ⟨t, o, hexec, hout, by rw [hbits, hboth, classify_not, bits_none], hprev⟩

theorem tick_vector (cfg : Config) (st : BlockState) (S : Snapshot) :
    (commandResult cfg st S .tick).2.vector = pack cfg.variant S (peekAll cfg.variant st S) := by
  rw [commandResult, tickCmd_eq, Output.vector]

theorem getReport_vector (cfg : Config) (st : BlockState) (S : Snapshot) :
    (commandResult cfg st S (.getReport cfg.reportId)).2.vector
      = pack cfg.variant S (peekAll cfg.variant st S) := by
  rw [commandResult, getReportCmd_match, Output.vector, Option.getD_some]

/-- Settles O39: both commands pack the same pulses, and the TICK after the GET_REPORT finds the same registers
and lines. -/
theorem peekSeesWhatTickWouldAndConsumesNothing : Obligations.PeekSeesWhatTickWouldAndConsumesNothing := by
  intro s
  have hstay : (commandResult s.cfg s.block s.lines (.getReport s.cfg.reportId)).1 = s.block :=
    commandResult_block_of_quiet _ _ _ rfl
  refine ⟨_, _, _, _, _, exec_eq _ s, exec_eq .tick s, exec_eq .tick _, rfl, rfl, ?outputs, ?vectors,
    hstay, ?registers⟩
  case outputs => simp [hstay]
  case vectors => rw [getReport_vector, tick_vector]
  case registers => simp [hstay]

/-! ### The sampler -/

/-- A line the group has reads inverted (40_quadrature_decoder.md R56). -/
theorem lineAt_map_not {group : List Bool} {i : Nat} (h : i < group.length) :
    lineAt (group.map (!·)) i = !lineAt group i := by
  simp [lineAt, List.getD_eq_getElem?_getD, h]

theorem wellFormed_iff (v : Variant) (S : Snapshot) : S.wellFormed v = true ↔
    S.btn.length = nReg v ∧ S.ebtn.length = nEbtn v ∧ S.a.length = nEnc v ∧ S.b.length = nEnc v := by
  simp only [Snapshot.wellFormed, Bool.and_eq_true, beq_iff_eq, and_assoc]

/-- Settles O49: PACK copies button and press lines and TICK commits the encoder lines, all of which the sampler
has inverted. -/
theorem lowLinesReadAsserted : Obligations.LowLinesReadAsserted := by
  intro s levels hwf hlines
  obtain ⟨hbtn, hebtn, ha, hb⟩ := (wellFormed_iff _ _).mp hwf
  obtain ⟨hbit, -⟩ := pack_peek_vectorOf s.cfg.variant s.block s.lines
  refine ⟨_, _, exec_eq .tick s, respond_outputs _ _, fun i hi => ?btn, fun j hj => ?ebtn, fun k hk => ?enc⟩
  case btn =>
    rw [tick_vector]
    calc _ = lineAt s.lines.btn i := hbit (.btn i) hi
      _ = !lineAt levels.btn i := by rw [hlines]; exact lineAt_map_not (hbtn ▸ hi)
  case ebtn =>
    rw [tick_vector]
    calc _ = lineAt s.lines.ebtn j := hbit (.ebtn j) hj
      _ = !lineAt levels.ebtn j := by rw [hlines]; exact lineAt_map_not (hebtn ▸ hj)
  case enc =>
    calc _ = cur s.lines k := commandResult_prevAt _ _ _ .tick hk
      _ = concatAB (!lineAt levels.a k) (!lineAt levels.b k) := by
        rw [hlines, cur]; exact congrArg₂ concatAB (lineAt_map_not (ha ▸ hk)) (lineAt_map_not (hb ▸ hk))
      _ = ~~~(cur levels k) := concatAB_not _ _

end Sys2Proof.Machine
end

section
/-! The decoder over several commands (40_quadrature_decoder.md R64, R67): what runs of TICKs, and host traffic
between TICKs, do to the registers and the results. -/

namespace Sys2Proof.Machine

/-- A run that begins with a TICK goes on from a state with one more result, that of the encoder's transition to
the sampled level. -/
theorem runAll_tick {s : State} {x : Input} {rest : List Input} {k : Nat} (hk : k < nEnc s.cfg.variant)
    (hq : s.queue = x :: rest) (hx : x.command = .tick) :
    ∃ u o, runAll s = runAll u ∧ u.queue = rest ∧ u.cfg = s.cfg ∧ u.outputs = s.outputs ++ [o]
      ∧ o.isTick = true
      ∧ o.pulseBits s.cfg.variant k = (classify (s.block.prevAt k) (cur x.snap k)).bits
      ∧ u.block.prevAt k = cur x.snap k := by
  have hrun := runAll_cons hq
  rw [hx] at hrun
  exact ⟨_, _, hrun, rfl, rfl, rfl, rfl, tick_pulseBits _ _ _ hk, commandResult_prevAt _ _ _ .tick hk⟩

/-- A run that begins with commands other than TICK and RESET goes on from a state with the same registers and
one result more for each of them. -/
theorem runAll_quiet_append {mid post : List Input} {s : State} (hq : s.queue = mid ++ post)
    (hmid : ∀ z ∈ mid, quiet z.command = true) :
    ∃ u outs, runAll s = runAll u ∧ u.queue = post ∧ u.cfg = s.cfg ∧ u.block = s.block
      ∧ u.outputs = s.outputs ++ outs ∧ outs.length = mid.length := by
  induction mid generalizing s with
  | nil => exact ⟨s, [], rfl, hq, rfl, rfl, (List.append_nil _).symm, rfl⟩
  | cons z mid ih =>
    rw [List.forall_mem_cons] at hmid
    obtain ⟨hz, hrest⟩ := hmid
    obtain ⟨u, outs, hrun, hqueue, hcfg, hblock, hout, hlen⟩ :=
      ih (respond_queue (s.present z.snap (mid ++ post)) (commandResult s.cfg s.block z.snap z.command)) hrest
    refine ⟨u, (commandResult s.cfg s.block z.snap z.command).2 :: outs, (runAll_cons hq).trans hrun, hqueue, hcfg,
      ?block, ?outputs, congrArg Nat.succ hlen⟩
    case block => rw [hblock, respond_block, commandResult_block_of_quiet _ _ _ hz]
    case outputs => rw [hout, respond_outputs, present_outputs, List.append_assoc, List.singleton_append]

/-- Settles O43: the first TICK leaves its level in the register, the GET_REPORTs keep it there, and the second
TICK compares it with itself. -/
theorem unchangedLinesGiveNoSecondPulse : Obligations.UnchangedLinesGiveNoSecondPulse := by
  intro s k x mid y hk hq hx hy hmid hsame
  have hquiet : ∀ z ∈ mid, quiet z.command = true := fun z hz => by
    obtain ⟨rid, hrid⟩ := hmid z hz
    rw [hrid]; rfl
  obtain ⟨u, o₁, hrun₁, hq₁, hcfg₁, hout₁, -, -, hprev₁⟩ := runAll_tick hk hq hx
  obtain ⟨w, outs, hrun₂, hq₂, hcfg₂, hblock₂, hout₂, hlen⟩ := runAll_quiet_append hq₁ hquiet
  have hcfg : w.cfg = s.cfg := hcfg₂.trans hcfg₁
  obtain ⟨t, o₂, hrun₃, hq₃, -, hout₃, htick, hbits, -⟩ := runAll_tick (hcfg ▸ hk) hq₂ hy
  refine ⟨t, o₁ :: outs, o₂, ?run, ?outputs, congrArg Nat.succ hlen, htick, ?pulse⟩
  case run => rw [hrun₁, hrun₂, hrun₃, runAll_nil hq₃]
  case outputs => rw [hout₃, hout₂, hout₁, List.append_assoc s.outputs, List.singleton_append]
  case pulse => rw [← hcfg, hbits, hblock₂, hprev₁, hsame, classify_self, bits_none]

/-- A run of TICKs alone: each result has the bits of the transition from the level before, the register's for the
first, and the register ends at the last level. -/
theorem runAll_ticks {s : State} {k : Nat} (hk : k < nEnc s.cfg.variant)
    (hticks : ∀ x ∈ s.queue, x.command = .tick) {levels : List Level}
    (hlevels : s.queue.map (fun x => cur x.snap k) = levels) :
    ∃ t outs, runAll s = .next t ∧ t.outputs = s.outputs ++ outs
      ∧ outs.map (Output.pulseBits s.cfg.variant k)
        = (List.zipWith classify (s.block.prevAt k :: levels) levels).map Pulse.bits
      ∧ t.block.prevAt k = levels.getLastD (s.block.prevAt k) := by
  induction levels generalizing s with
  | nil =>
    exact ⟨s, [], runAll_nil (List.map_eq_nil_iff.mp hlevels), (List.append_nil _).symm, rfl, rfl⟩
  | cons c levels ih =>
    obtain ⟨x, rest, hq, rfl, hrest⟩ := List.map_eq_cons_iff.mp hlevels
    rw [hq, List.forall_mem_cons] at hticks
    obtain ⟨hx, hticks⟩ := hticks
    obtain ⟨u, o, hrun₁, hqueue, hcfg, hout₁, -, hbits, hprev₁⟩ := runAll_tick hk hq hx
    obtain ⟨t, outs, hrun, hout, hpulses, hprev⟩ :=
      ih (hcfg ▸ hk) (hqueue ▸ hticks) (hqueue ▸ hrest)
    rw [hcfg, hprev₁] at hpulses
    refine ⟨t, o :: outs, hrun₁.trans hrun, ?outputs, ?pulses, ?register⟩
    case outputs => rw [hout, hout₁, List.append_assoc, List.singleton_append]
    case pulses => rw [List.map_cons, hbits, hpulses, List.zipWith_cons_cons, List.map_cons]
    case register => rw [hprev, hprev₁, List.getLastD_cons]

/-- Settles O47: each of the four transitions is a CW one, and four of them lead back. -/
theorem fullClockwiseCycleGivesFourPulses : Obligations.FullClockwiseCycleGivesFourPulses := by
  intro s k x₁ x₂ x₃ x₄ hk hq hticks h₁ h₂ h₃ h₄
  obtain ⟨t, outs, hrun, hout, hpulses, hprev⟩ := runAll_ticks hk hticks rfl
  refine ⟨t, outs, hrun, hout, ?pulses, ?register⟩
  case pulses => simp [hpulses, hq, h₁, h₂, h₃, h₄, classify_cwNext, List.replicate]
  case register => simp [hprev, hq, h₁, h₂, h₃, h₄, cwNext_four]

end Sys2Proof.Machine
end

section
/-! PACK, SERIALIZE and ACTIVE (41_button_vector_encoder.md): which source has which bit of the vector, and what
of it the payload, the buffer and `active` show. -/

namespace Sys2Proof.Machine

/-! ### The positions (41_button_vector_encoder.md R68, R71) -/

/-- The source whose bit stands at position `i`: buttons, then press buttons, then CW and CCW in turn. -/
def sourceAt (v : Variant) (i : Nat) : Source :=
  if i < nReg v then .btn i
  else if i < nReg v + nEbtn v then .ebtn (i - nReg v)
  else if (i - (nReg v + nEbtn v)) % 2 = 0 then .cw ((i - (nReg v + nEbtn v)) / 2)
  else .ccw ((i - (nReg v + nEbtn v)) / 2)

theorem position_lt_width {v : Variant} {src : Source} (h : src.configured v) : src.position v < width v := by
  cases src <;> simp only [Source.configured, Source.position, width] at h ⊢ <;> omega

theorem sourceAt_position {v : Variant} {src : Source} (h : src.configured v) :
    sourceAt v (src.position v) = src := by
  cases src with
  | btn i => exact if_pos h
  | ebtn j =>
    simp only [Source.configured] at h
    simp [sourceAt, Source.position, h]
  | cw k =>
    rw [sourceAt, Source.position, if_neg (by omega), if_neg (by omega), Nat.add_sub_cancel_left,
      if_pos (by omega), Nat.mul_div_cancel_left k two_pos]
  | ccw k =>
    have hhalf : (2 * k + 1) / 2 = k := by omega
    rw [sourceAt, Source.position, if_neg (by omega), if_neg (by omega), Nat.add_assoc _ (2 * k) 1,
      Nat.add_sub_cancel_left, if_neg (by omega), hhalf]

theorem sourceAt_configured_position {v : Variant} {i : Nat} (h : i < width v) :
    (sourceAt v i).configured v ∧ (sourceAt v i).position v = i := by
  rw [width] at h
  unfold sourceAt
  split_ifs <;> simp only [Source.configured, Source.position, and_true] <;> omega

/-- Settles O28: PACK's vector has each source's value at its position, and `sourceAt` inverts `position`. -/
theorem packGivesEverySourceOneBit : Obligations.PackGivesEverySourceOneBit := by
  intro v
  refine ⟨fun S pulses => (pack_vectorOf v S pulses).1, fun S pulses => (pack_vectorOf v S pulses).2,
    fun src => position_lt_width, fun i hi => ⟨sourceAt v i, sourceAt_configured_position hi, ?_⟩⟩
  rintro src ⟨hsrc, rfl⟩
  exact (sourceAt_position hsrc).symm

/-! ### TICK's vector and `active` (41_button_vector_encoder.md R69, R77) -/

/-- TICK hands out the vector of the lines and of the pulses the decoder reads, and its `active`. -/
theorem exec_tick_vectorOf (s : State) : ∃ t vec payload, exec .tick s = .next t
    ∧ t.outputs = s.outputs ++ [.tick vec payload s.cfg.reportId (active vec)]
    ∧ VectorOf s.cfg.variant s.lines (pulseOf s.block s.lines) vec := by
  have hexec := exec_eq .tick s
  rw [commandResult, tickCmd_eq] at hexec
  exact ⟨_, _, _, hexec, respond_outputs _ _, pack_peek_vectorOf _ _ _⟩

/-- Settles O29: the positions of V21's sources, with its numbers of buttons and encoders put in. -/
theorem bitLayoutOfTheTwentyOneButtonVariant : Obligations.BitLayoutOfTheTwentyOneButtonVariant := by
  intro s hv
  obtain ⟨t, vec, payload, hexec, hout, hbit, -⟩ := exec_tick_vectorOf s
  rw [hv] at hbit
  exact ⟨t, vec, payload, _, hexec, hout, fun i => hbit (.btn i), fun j => hbit (.ebtn j),
    fun k hk => ⟨hbit (.cw k) hk, Nat.add_right_comm 11 (2 * k) 1 ▸ hbit (.ccw k) hk⟩⟩

theorem active_iff_below_width {v : Variant} {vec : ButtonVec} (h : ∀ i, width v ≤ i → vec.getLsbD i = false) :
    active vec = true ↔ ∃ i, i < width v ∧ vec.getLsbD i = true := by
  rw [active_iff]
  refine exists_congr fun i => ⟨fun hi => ⟨?_, hi⟩, And.right⟩
  by_contra hge
  exact Bool.false_ne_true ((h i (not_lt.mp hge)).symm.trans hi)

/-- A pulse is a bit of the vector. -/
theorem active_of_pulse {v : Variant} {S : Snapshot} {pulse : Nat → Pulse} {vec : ButtonVec}
    (h : VectorOf v S pulse vec) {k : Nat} (hk : k < nEnc v) (hp : pulse k ≠ .none) : active vec = true := by
  obtain ⟨hbit, -⟩ := h
  refine (active_iff vec).mpr ?_
  cases hpulse : pulse k with
  | none => exact absurd hpulse hp
  | cw => exact ⟨_, (hbit (.cw k) hk).trans (beq_iff_eq.mpr hpulse)⟩
  | ccw => exact ⟨_, (hbit (.ccw k) hk).trans (beq_iff_eq.mpr hpulse)⟩

/-- Settles O33: TICK's vector has no bit at or above W, and a bit for every pulse. -/
theorem activeIsAnyBitOfTheVector : Obligations.ActiveIsAnyBitOfTheVector := by
  intro s
  obtain ⟨t, vec, payload, hexec, hout, hvec⟩ := exec_tick_vectorOf s
  exact ⟨t, vec, payload, _, hexec, hout, active_iff_below_width hvec.2, fun k hk => active_of_pulse hvec hk⟩

/-! ### The padding (41_button_vector_encoder.md R73) -/

/-- Settles O31: SERIALIZE gives a payload, and a matching GET_REPORT writes the whole of one to the buffer. -/
theorem paddingBitsAreZero : Obligations.PaddingBitsAreZero := by
  constructor
  · intro v vec i hw hi
    obtain ⟨hlen, -, hpad⟩ := serialize_payloadOf v vec
    exact ⟨by omega, hpad i hw hi⟩
  · intro s
    have hexec := exec_eq (.getReport s.cfg.reportId) s
    obtain ⟨hmatch, -⟩ := wholePayloadOrNothing s _ _ hexec
    obtain ⟨vec, bytes, -, ⟨-, -, hpad⟩, hread, -⟩ := hmatch rfl
    exact ⟨_, hexec, fun i hw hi => ⟨_, hread (i / 8) (by omega), hpad i hw hi⟩⟩

/-! ### V6 (41_button_vector_encoder.md R70) -/

/-- PACK reads the regular buttons of a V6 snapshot and nothing else. -/
theorem packBits_v6 (S : Snapshot) (pulses : List Pulse) :
    packBits .v6 S pulses = (List.range 6).map (lineAt S.btn) := by
  simp [packBits, nReg, nEbtn, nEnc]

theorem pack_v6_congr {S S' : Snapshot} (h : S'.btn = S.btn) (pulses pulses' : List Pulse) :
    pack .v6 S' pulses' = pack .v6 S pulses := by
  rw [pack, pack, packBits_v6, packBits_v6, h]

/-- In V6 registers and lines other than the regular buttons do not reach a result. -/
theorem commandResult_output_v6_congr {cfg : Config} (hv : cfg.variant = .v6) {S S' : Snapshot}
    (h : S'.btn = S.btn) (st st' : BlockState) (i : Instr) :
    (commandResult cfg st' S' i).2 = (commandResult cfg st S i).2 := by
  cases i with
  | tick => simp only [commandResult, tickCmd_eq, hv, pack_v6_congr h (peekAll .v6 st S)]
  | getReport rid =>
    by_cases hrid : rid = cfg.reportId
    · simp only [hrid, commandResult, getReportCmd_match, hv, pack_v6_congr h (peekAll .v6 st S)]
    · simp only [commandResult, getReportCmd_mismatch _ _ _ _ hrid]
  | nop => rfl
  | setReport rid => rfl
  | reset => rfl

/-- The vector of a legal result has no bit at or above W. -/
theorem vector_bit_of_legal {cfg : Config} {o : Output} (h : o.legal cfg) {i : Nat} (hi : width cfg.variant ≤ i) :
    o.vector.getLsbD i = false := by
  cases o with
  | none => exact BitVec.getLsbD_zero
  | tick vec payload ridOut act =>
    obtain ⟨⟨hzero, -⟩, -⟩ := h
    exact hzero i hi
  | report len vec ws =>
    obtain ⟨-, rfl, -⟩ | ⟨-, u, bytes, rfl, ⟨hzero, -⟩, -⟩ := h
    · exact BitVec.getLsbD_zero
    · exact hzero i hi

theorem vector_of_tick_or_getReport (cfg : Config) (st : BlockState) (S : Snapshot) {i : Instr}
    (h : i = .tick ∨ i = .getReport cfg.reportId) :
    (commandResult cfg st S i).2.vector = pack cfg.variant S (peekAll cfg.variant st S) := by
  obtain rfl | rfl := h
  · exact tick_vector cfg st S
  · exact getReport_vector cfg st S

/-- Settles O27: PACK reads nothing else in V6, its bits 0 to 5 are the buttons, and every result is legal. -/
theorem sixButtonVariantSeesRegularButtonsOnly : Obligations.SixButtonVariantSeesRegularButtonsOnly := by
  intro s i st S hv hbtn
  refine ⟨_, _, _, exec_eq i s, exec_eq i _, respond_outputs _ _, ?same, fun hi j hj => ?button,
    fun j hj => ?above⟩
  case same => rw [respond_outputs, commandResult_output_v6_congr hv hbtn s.block st i]
  case button =>
    obtain ⟨hbit, -⟩ := pack_peek_vectorOf s.cfg.variant s.block s.lines
    rw [vector_of_tick_or_getReport _ _ _ hi]
    exact hbit (.btn j) (hv ▸ hj)
  case above => exact vector_bit_of_legal (commandResult_legal s.cfg s.block s.lines i) (hv ▸ hj)

end Sys2Proof.Machine
end

section
/-! The commands (42_commands.md): the dispatch of one step, what NOP, SET_REPORT, TICK and GET_REPORT do, and the
run of a sequence of commands as the fold of the spec's step. -/

namespace Sys2Proof.Machine

/-! ### Dispatch (42_commands.md R81) -/

/-- The four command words by bits 9 and 8. -/
theorem decodeWord_cases_bits (w : CmdWord) :
    (w.getLsbD 9 = false ∧ w.getLsbD 8 = false ∧ decodeWord w = .nop)
      ∨ (w.getLsbD 9 = false ∧ w.getLsbD 8 = true ∧ decodeWord w = .tick)
      ∨ (w.getLsbD 9 = true ∧ w.getLsbD 8 = false ∧ decodeWord w = .getReport (w.setWidth 8))
      ∨ (w.getLsbD 9 = true ∧ w.getLsbD 8 = true ∧ decodeWord w = .setReport (w.setWidth 8)) := by
  have h := decodeWord_cases w
  simp only [cmdField_eq_iff, ridField_eq, and_assoc] at h
  exact h

theorem decodePort_bits (rst : Bool) (word : CmdWord) : decodePort ⟨rst, word⟩ =
    if rst then .reset
    else if word.getLsbD 9 = false ∧ word.getLsbD 8 = false then .nop
    else if word.getLsbD 9 = false ∧ word.getLsbD 8 = true then .tick
    else if word.getLsbD 9 = true ∧ word.getLsbD 8 = false then .getReport (word.setWidth 8)
    else .setReport (word.setWidth 8) := by
  cases rst with
  | true => rfl
  | false =>
    rw [decodePort_word _ rfl]
    obtain ⟨h9, h8, hw⟩ | ⟨h9, h8, hw⟩ | ⟨h9, h8, hw⟩ | ⟨h9, h8, hw⟩ := decodeWord_cases_bits word <;>
      (rw [hw, h9, h8]; rfl)

/-- Settles O5: a step fetches the decoded command, and a run goes on from the state its first step leaves. -/
theorem stepRunsTheDecodedCommand : Obligations.StepRunsTheDecodedCommand := by
  intro s rst word S rest hq
  refine ⟨?dispatch, fun n t => run_succ n, decodePort_bits rst word⟩
  case dispatch => rw [step, fetch_cons s _ rest hq]; rfl

/-! ### One command -/

/-- Settles O14: either command leaves the registers and gives no output, so it writes nothing either. -/
theorem nopAndSetReportDoNothing : Obligations.NopAndSetReportDoNothing := by
  intro s i hi
  have hexec := exec_eq i s
  rw [commandResult_nop_or_setReport hi] at hexec
  exact ⟨_, hexec, respond_outputs _ _, respond_block _ _, fun _ => rfl, rfl, rfl, rfl⟩

/-- Settles O15: TICK hands out the block's vector, its payload and its `active`, and commits the levels. -/
theorem tickDecodesPacksAndCommits : Obligations.TickDecodesPacksAndCommits := by
  intro s
  have hexec := exec_eq .tick s
  rw [commandResult, tickCmd_eq] at hexec
  exact ⟨_, _, _, _, hexec, respond_outputs _ _, pack_peek_vectorOf _ _ _, serialize_payloadOf _ _, active_iff _,
    by simp, prevAt_map _ _, fun _ => rfl, rfl, rfl, rfl⟩

theorem bufWrites_serialize (v : Variant) (vec : ButtonVec) :
    bufWrites (serialize v vec) = (List.range (payloadLen v)).map fun a => (a, (serialize v vec).getD a 0) := by
  rw [bufWrites, serialize_length]

/-- GET_REPORT for any other ID (60_exceptions.md R90). -/
theorem exec_getReport_mismatch (s : State) {rid : ReportId} (h : rid ≠ s.cfg.reportId) :
    exec (.getReport rid) s = .next { s with outputs := s.outputs ++ [.report 0 none []] } := by
  rw [exec_eq, commandResult, getReportCmd_mismatch _ _ _ _ h]
  rfl

/-- On the levels TICK has just committed the decoder reads no pulse. -/
theorem pulseOf_after_tick (cfg : Config) (st : BlockState) (S : Snapshot) {k : Nat} (hk : k < nEnc cfg.variant) :
    pulseOf (commandResult cfg st S .tick).1 S k = .none := by
  rw [pulseOf, commandResult_prevAt cfg st S .tick hk, if_pos rfl, classify_self]

/-- Settles O16: a match hands out the block's vector and writes its payload, a mismatch hands out nothing, and a
GET_REPORT right after a TICK compares the levels with themselves. -/
theorem getReportAnswersWithoutChangingState : Obligations.GetReportAnswersWithoutChangingState := by
  refine ⟨?matching, fun s rid => exec_getReport_mismatch s, fun s => ?afterTick⟩
  case matching =>
    rintro s rid rfl
    have hexec := exec_eq (.getReport s.cfg.reportId) s
    rw [commandResult, getReportCmd_match, bufWrites_serialize] at hexec
    refine ⟨_, _, _, hexec, respond_outputs _ _, pack_peek_vectorOf _ _ _, serialize_payloadOf _ _, fun a ha => ?_,
      fun a ha => ?_, rfl, rfl, rfl, rfl⟩ <;>
      rw [respond_buf, Output.writes, ← bufWrites_serialize, read_bufWrites, serialize_length]
    · exact if_pos ha
    · exact if_neg (not_lt.mpr ha)
  case afterTick =>
    refine ⟨_, _, _, _, exec_eq .tick s, exec_eq _ _, List.append_assoc _ _ _, fun k hk => ?_⟩
    calc _ = (pulseOf (commandResult s.cfg s.block s.lines .tick).1 s.lines k).bits := getReport_pulseBits _ _ _ hk
      _ = (false, false) := by rw [pulseOf_after_tick _ _ _ hk, bits_none]

/-! ### Runs (42_commands.md R86 to R88) -/

/-- The spec's step is the decoded command's effect on the block. -/
theorem blockStep_eq (cfg : Config) (st : BlockState) (inp : Input) :
    blockStep cfg st inp.port.rst inp.port.word inp.snap = commandResult cfg st inp.snap inp.command := by
  obtain ⟨⟨rst, word⟩, S⟩ := inp
  cases rst with
  | true => rfl
  | false =>
    rw [Input.command, decodePort_word _ rfl]
    obtain ⟨h9, h8, hw⟩ | ⟨h9, h8, hw⟩ | ⟨h9, h8, hw⟩ | ⟨h9, h8, hw⟩ := decodeWord_cases_bits word <;>
      (rw [hw, blockStep, h9, h8]; rfl)

theorem blockRun_cons (cfg : Config) (st : BlockState) (inp : Input) (rest : List Input) :
    blockRun cfg st (inp :: rest) =
      ((blockRun cfg (commandResult cfg st inp.snap inp.command).1 rest).1,
        (commandResult cfg st inp.snap inp.command).2
          :: (blockRun cfg (commandResult cfg st inp.snap inp.command).1 rest).2) := by
  rw [← blockStep_eq]
  rfl

/-- A run of `n` steps is the spec's fold over the caller's next `n` commands, or all where there are fewer. -/
theorem run_eq_blockRun (n : Nat) (s : State) : ∃ t, Host.Core.run Sys2Proof.core n s = .next t
    ∧ t.block = (blockRun s.cfg s.block (s.queue.take n)).1
    ∧ t.outputs = s.outputs ++ (blockRun s.cfg s.block (s.queue.take n)).2
    ∧ t.queue = s.queue.drop n ∧ t.cfg = s.cfg := by
  induction n generalizing s with
  | zero => exact ⟨s, rfl, rfl, (List.append_nil _).symm, rfl, rfl⟩
  | succ n ih =>
    cases hq : s.queue with
    | nil =>
      rw [run_succ n (step_idle s hq)]
      simpa [hq] using ih s
    | cons inp rest =>
      rw [run_succ n (step_command s inp rest hq), List.take_succ_cons, List.drop_succ_cons, blockRun_cons]
      simpa using ih ((s.present inp.snap rest).respond (commandResult s.cfg s.block inp.snap inp.command))

/-- Settles O9: the run of all the commands takes as many steps as there are commands. -/
theorem runIsTheFoldOfTheSpecStep : Obligations.RunIsTheFoldOfTheSpecStep := by
  intro s
  have h := run_eq_blockRun s.queue.length s
  rw [List.take_length, List.drop_length] at h
  exact h

/-- Settles O25: the fold reads neither the buffer nor the earlier results. -/
theorem whatTheCallerDoesWithOutputsNeverMatters : Obligations.WhatTheCallerDoesWithOutputsNeverMatters := by
  intro n s buf outputs
  obtain ⟨t, hrun, hblock, hout, -⟩ := run_eq_blockRun n s
  obtain ⟨t', hrun', hblock', hout', -⟩ := run_eq_blockRun n { s with buf := buf, outputs := outputs }
  exact ⟨t, t', _, hrun, hrun', hblock'.trans hblock.symm, hout, hout'⟩

theorem blockRun_append (cfg : Config) (st : BlockState) (xs ys : List Input) :
    blockRun cfg st (xs ++ ys) =
      ((blockRun cfg (blockRun cfg st xs).1 ys).1,
        (blockRun cfg st xs).2 ++ (blockRun cfg (blockRun cfg st xs).1 ys).2) := by
  induction xs generalizing st with
  | nil => rfl
  | cons x xs ih => simp only [List.cons_append, blockRun_cons, ih]

/-- Commands other than TICK and RESET leave the registers and give no TICK result. -/
theorem blockRun_of_quiet {cfg : Config} {st : BlockState} {xs : List Input}
    (h : ∀ x ∈ xs, quiet x.command = true) :
    (blockRun cfg st xs).1 = st ∧ (blockRun cfg st xs).2.filter Output.isTick = [] := by
  induction xs with
  | nil => exact ⟨rfl, rfl⟩
  | cons x xs ih =>
    rw [List.forall_mem_cons] at h
    obtain ⟨hx, hxs⟩ := h
    have hnot : ¬ (commandResult cfg st x.snap x.command).2.isTick = true := fun htick => by
      rw [(commandResult_isTick_iff _ _ _ _).mp htick] at hx
      cases hx
    rw [blockRun_cons, commandResult_block_of_quiet _ _ _ hx, List.filter_cons_of_neg hnot]
    exact ih hxs

/-- Settles O42: in the fold the host traffic hands on the registers it found and adds no TICK result. -/
theorem hostTrafficIsTransparentToTicks : Obligations.HostTrafficIsTransparentToTicks := by
  intro s pre mid post hq hmid
  obtain ⟨t, hrun, hblock, hout, -⟩ := runIsTheFoldOfTheSpecStep s
  obtain ⟨t', hrun', hblock', hout', -⟩ := runIsTheFoldOfTheSpecStep { s with queue := pre ++ post }
  obtain ⟨hkeep, hnone⟩ := blockRun_of_quiet (cfg := s.cfg) (st := (blockRun s.cfg s.block pre).1) hmid
  refine ⟨t, t', hrun, hrun', ?registers, ?results⟩
  case registers => simp only [hblock, hblock', hq, blockRun_append, hkeep]
  case results => simp only [hout, hout', hq, blockRun_append, hkeep, hnone, List.filter_append, List.append_nil]

end Sys2Proof.Machine
end

section
/-! No exceptions (60_exceptions.md): no run stops, a report ID that is not the configured one is a normal outcome,
and RESET displaces the command word beside it. -/

namespace Sys2Proof.Machine

/-- Settles O8: every step answers a next state, so every run does, by induction on its steps. -/
theorem everyRunAnswersANextState : Obligations.EveryRunAnswersANextState := by
  intro n
  induction n with
  | zero => exact fun s => ⟨s, rfl⟩
  | succ n ih =>
    intro s
    obtain ⟨u, hu⟩ := step_next s
    rw [run_succ n hu]
    exact ih u

/-! ### Unrecognised report IDs -/

/-- SET_REPORT for any ID (60_exceptions.md R90). -/
theorem exec_setReport (s : State) (rid : ReportId) :
    exec (.setReport rid) s = .next { s with outputs := s.outputs ++ [.none] } := by
  rw [exec_eq, commandResult_nop_or_setReport (.inr ⟨rid, rfl⟩)]
  rfl

/-- Settles O17: both outcomes are next states, with one result more. -/
theorem unrecognisedReportIdIsANormalOutcome : Obligations.UnrecognisedReportIdIsANormalOutcome :=
  ⟨fun s _ => exec_getReport_mismatch s, exec_setReport⟩

/-- Settles O26: on a mismatch only the list of results changes, and by the same result in both states. -/
theorem mismatchReadsNeitherLinesNorRegisters : Obligations.MismatchReadsNeitherLinesNorRegisters := by
  intro s rid st S h
  exact ⟨_, _, exec_getReport_mismatch s h, exec_getReport_mismatch { s with block := st, lines := S } h,
    rfl, rfl, rfl, rfl, rfl⟩

/-! ### RESET beside a command word -/

/-- The step on which `rst = 1` runs RESET, whatever the word (60_exceptions.md R95). -/
theorem step_rst {s : State} {word : CmdWord} {S : Snapshot} {rest : List Input}
    (hq : s.queue = ⟨⟨true, word⟩, S⟩ :: rest) :
    step s = .next ((s.present S rest).respond (commandResult s.cfg s.block S .reset)) := by
  rw [step_command s _ rest hq, Input.command, decodePort_rst _ rfl]

/-- Settles O20: the word does not reach the state that RESET leaves, and the snapshot reaches its lines alone. -/
theorem resetDiscardsTheCommandWord : Obligations.ResetDiscardsTheCommandWord := by
  intro s word S rest hq
  refine ⟨_, step_rst hq, fun k hk => ?registers, respond_outputs _ _, rfl, fun word' S' => ?otherWord⟩
  case registers => exact commandResult_prevAt s.cfg s.block S .reset hk
  case otherWord => exact ⟨_, step_rst rfl, rfl, rfl, rfl, rfl⟩

end Sys2Proof.Machine
end

section
/-! Reset (70_reset_and_hazards.md §1): RESET and power-on leave the same block, and what the first TICK after
either of them reports. -/

namespace Sys2Proof.Machine

/-! ### The power-on state -/

theorem powerOn_prev_length (v : Variant) : (BlockState.powerOn v).prev.length = nEnc v :=
  List.length_replicate

/-- Past the last encoder this reads the model's default, which is `00` too (log 17). -/
theorem powerOn_prevAt_eq_zero (v : Variant) (k : Nat) : (BlockState.powerOn v).prevAt k = 0b00#2 :=
  List.getElem?_getD_replicate_default_eq _ _ k

theorem releasedLines_wellFormed (v : Variant) : (releasedLines v).wellFormed v = true := by
  simp [wellFormed_iff, releasedLines]

/-- Settles O10: each list of the power-on state has its length by construction, and queue, buffer and results
are empty. -/
theorem powerOnStateMeetsTheInvariants : Obligations.PowerOnStateMeetsTheInvariants := by
  intro cfg
  refine ⟨⟨powerOn_prev_length _, releasedLines_wellFormed _, ?queue, resetOf_buf_wf cfg⟩, ?results,
    powerOn_prev_length _, powerOn_prevAt_eq_zero _⟩
  case queue => exact List.forall_mem_nil _
  case results => exact List.forall_mem_nil _

/-! ### RESET -/

/-- RESET leaves the power-on registers, whatever they were, and gives no output. -/
theorem commandResult_reset (cfg : Config) (st : BlockState) (S : Snapshot) :
    commandResult cfg st S .reset = (BlockState.powerOn cfg.variant, .none) := by
  simp [commandResult, resetCmd, BlockState.powerOn]

/-- The meaning of RESET as one update of the state: registers and results, and no other field. -/
theorem exec_reset (s : State) : exec .reset s =
    .next { s with block := BlockState.powerOn s.cfg.variant, outputs := s.outputs ++ [.none] } := by
  rw [exec_eq, commandResult_reset]
  rfl

/-- A variant without encoders has one block alone with one register per encoder, the empty one. -/
theorem block_eq_powerOn_of_nEnc_zero {v : Variant} {st : BlockState} (hv : nEnc v = 0)
    (h : st.prev.length = nEnc v) : st = BlockState.powerOn v := by
  obtain ⟨prev⟩ := st
  have hprev : prev = [] := List.length_eq_zero_iff.mp (h.trans hv)
  rw [hprev, BlockState.powerOn, hv, List.replicate_zero]

/-- Settles O18: RESET writes registers and results alone, and V6 has no registers to write. -/
theorem resetClearsEveryRegister : Obligations.ResetClearsEveryRegister := by
  intro s
  refine ⟨_, exec_reset s, powerOn_prev_length _, fun k hk => powerOn_prevAt _ hk, ?noRegisters, rfl,
    fun _ => rfl, rfl, rfl, rfl⟩
  case noRegisters =>
    rintro ⟨hlen, -⟩ hv
    have hnone : nEnc s.cfg.variant = 0 := by rw [hv, nEnc]
    exact (block_eq_powerOn_of_nEnc_zero hnone hlen).symm

/-- Settles O19: RESET and power-on leave the same block. -/
theorem resetGivesThePowerOnState : Obligations.ResetGivesThePowerOnState := fun s =>
  ⟨_, exec_reset s, rfl, powerOn_prevAt_eq_zero _⟩

/-! ### The first TICK (70_reset_and_hazards.md R113) -/

/-- From `00` one CW step leads to `01` and one CCW step to `10`. -/
theorem classify_zero_bits :
    ∀ c : Level, (classify 0b00#2 c).bits = (decide (c = 0b01#2), decide (c = 0b10#2)) := by decide

/-- A TICK on the power-on registers. -/
theorem tick_pulseBits_powerOn (cfg : Config) (S : Snapshot) {k : Nat} (hk : k < nEnc cfg.variant) :
    (commandResult cfg (BlockState.powerOn cfg.variant) S .tick).2.pulseBits cfg.variant k
      = (decide (cur S k = 0b01#2), decide (cur S k = 0b10#2)) := by
  calc _ = (classify ((BlockState.powerOn cfg.variant).prevAt k) (cur S k)).bits := tick_pulseBits _ _ _ hk
    _ = _ := by rw [powerOn_prevAt _ hk, classify_zero_bits]

/-- Settles O46: after RESET as after power-on the TICK finds the power-on registers. -/
theorem firstTickAfterResetComparesAgainstZero : Obligations.FirstTickAfterResetComparesAgainstZero := by
  intro s k hk
  refine ⟨fun r x rest hq hr hx => ?afterReset, fun hpow => ?afterPowerOn⟩
  case afterReset =>
    have hreset := step_command s r (x :: rest) hq
    rw [hr, commandResult_reset] at hreset
    have htick := step_command ((s.present r.snap (x :: rest)).respond (BlockState.powerOn s.cfg.variant, .none))
      x rest rfl
    rw [hx] at htick
    exact ⟨_, _, (run_succ 1 hreset).trans (run_succ 0 htick), List.append_assoc _ _ _, rfl,
      tick_pulseBits_powerOn s.cfg x.snap hk⟩
  case afterPowerOn =>
    refine ⟨_, _, exec_eq .tick s, respond_outputs _ _, ?_⟩
    rw [hpow]
    exact tick_pulseBits_powerOn s.cfg s.lines hk

end Sys2Proof.Machine
end

section
/-! Software-visible hazards (70_reset_and_hazards.md §3): what TICK reports of several steps between two of them,
of at most one step, and of no change. -/

namespace Sys2Proof.Machine

/-! ### Several steps in one direction (70_reset_and_hazards.md R112) -/

theorem cwNext_isPeriodicPt (p : Level) : Function.IsPeriodicPt cwNext 4 p := cwNext_four p

theorem classify_cwNext_iterate_of_lt : ∀ m < 4, ∀ p : Level,
    (classify p (cwNext^[m] p)).bits = (decide (m = 1), decide (m = 3)) := by decide

/-- Only the number of CW steps modulo 4 is seen, since four steps lead back. -/
theorem classify_cwNext_iterate (p : Level) (n : Nat) :
    (classify p (cwNext^[n] p)).bits = (decide (n % 4 = 1), decide (n % 4 = 3)) := by
  rw [← (cwNext_isPeriodicPt p).iterate_mod_apply n]
  exact classify_cwNext_iterate_of_lt (n % 4) (Nat.mod_lt n four_pos) p

/-- A CCW step leads where three CW steps do. -/
theorem ccwNext_eq_cwNext_iterate : ccwNext = cwNext^[3] := by decide

theorem classify_ccwNext_iterate (p : Level) (n : Nat) :
    (classify p (ccwNext^[n] p)).bits = (decide (n % 4 = 3), decide (n % 4 = 1)) := by
  have hcw : 3 * n % 4 = 1 ↔ n % 4 = 3 := by omega
  have hccw : 3 * n % 4 = 3 ↔ n % 4 = 1 := by omega
  rw [ccwNext_eq_cwNext_iterate, ← Function.iterate_mul, classify_cwNext_iterate, decide_eq_decide.mpr hcw,
    decide_eq_decide.mpr hccw]

/-- Settles O44: TICK's bits are those of the transition from the register to the sampled level. -/
theorem aliasingByStepsModFour : Obligations.AliasingByStepsModFour := by
  intro s k n hk
  obtain ⟨t, o, hexec, hout, hbits, -⟩ := exec_tick_encoder s hk
  constructor
  · intro hcw
    exact ⟨t, o, hexec, hout, by rw [hbits, hcw, classify_cwNext_iterate]⟩
  · intro hccw
    exact ⟨t, o, hexec, hout, by rw [hbits, hccw, classify_ccwNext_iterate]⟩

/-! ### At most one step before each TICK -/

theorem classify_move_bits : ∀ (m : Move) (p : Level),
    (classify p (m.apply p)).bits = (decide (m = .cw), decide (m = .ccw))
  | .stay, p => by rw [Move.apply, classify_self]; rfl
  | .cw, p => by rw [Move.apply, classify_cwNext]; rfl
  | .ccw, p => classify_ccwNext_iterate p 1

/-- The transitions along a trail are its motions. -/
theorem classify_trail_bits (moves : List Move) (p : Level) :
    (List.zipWith classify (p :: trail p moves) (trail p moves)).map Pulse.bits
      = moves.map fun m => (decide (m = .cw), decide (m = .ccw)) := by
  induction moves generalizing p with
  | nil => rfl
  | cons m moves ih => rw [trail, List.zipWith_cons_cons, List.map_cons, List.map_cons, classify_move_bits, ih]

/-- Settles O45: the run's pulses are those of the transitions along the trail. -/
theorem oneStepPerTickIsReportedExactly : Obligations.OneStepPerTickIsReportedExactly := by
  intro s k moves hk hticks htrail
  obtain ⟨t, outs, hrun, hout, hpulses, -⟩ := runAll_ticks hk hticks htrail
  exact ⟨t, outs, hrun, hout, hpulses.trans (classify_trail_bits moves _)⟩

/-! ### No change between two TICKs (70_reset_and_hazards.md R115) -/

/-- The button and press bits are the lines', whatever the pulses. -/
theorem vectorOf_button_bits_eq {v : Variant} {S : Snapshot} {pulse pulse' : Nat → Pulse} {vec vec' : ButtonVec}
    (h : VectorOf v S pulse vec) (h' : VectorOf v S pulse' vec') {i : Nat} (hi : i < nReg v + nEbtn v) :
    vec'.getLsbD i = vec.getLsbD i := by
  obtain ⟨hbit, -⟩ := h
  obtain ⟨hbit', -⟩ := h'
  by_cases hreg : i < nReg v
  · exact (hbit' (.btn i) hreg).trans (hbit (.btn i) hreg).symm
  · obtain ⟨j, rfl⟩ := Nat.exists_eq_add_of_le (not_lt.mp hreg)
    have hj : j < nEbtn v := Nat.lt_of_add_lt_add_left hi
    exact (hbit' (.ebtn j) hj).trans (hbit (.ebtn j) hj).symm

/-- Above the buttons stand the pulses alone. -/
theorem vectorOf_bit_of_no_pulse {v : Variant} {S : Snapshot} {pulse : Nat → Pulse} {vec : ButtonVec}
    (h : VectorOf v S pulse vec) (hnone : ∀ k, k < nEnc v → pulse k = .none) {i : Nat}
    (hi : nReg v + nEbtn v ≤ i) : vec.getLsbD i = false := by
  obtain ⟨hbit, hzero⟩ := h
  by_cases hw : width v ≤ i
  · exact hzero i hw
  rw [width] at hw
  obtain ⟨j, rfl⟩ := Nat.exists_eq_add_of_le hi
  obtain ⟨k, rfl | rfl⟩ := Nat.even_or_odd' j
  · have hk : k < nEnc v := by omega
    exact (hbit (.cw k) hk).trans (by rw [Source.value, hnone k hk]; rfl)
  · have hk : k < nEnc v := by omega
    exact (hbit (.ccw k) hk).trans (by rw [Source.value, hnone k hk]; rfl)

/-- Settles O48: both TICKs pack the same lines, and the second finds the levels the first has committed. -/
theorem heldButtonsStayAndPulsesVanish : Obligations.HeldButtonsStayAndPulsesVanish := by
  intro s
  have hfirst := pack_peek_vectorOf s.cfg.variant s.block s.lines
  have hsecond := pack_peek_vectorOf s.cfg.variant (commandResult s.cfg s.block s.lines .tick).1 s.lines
  refine ⟨_, _, _, _, exec_eq .tick s, exec_eq .tick _, List.append_assoc _ _ _, fun i hi => ?buttons,
    fun i hi => ?pulses⟩
  case buttons =>
    rw [tick_vector, tick_vector]
    exact vectorOf_button_bits_eq hfirst hsecond hi
  case pulses =>
    rw [tick_vector]
    exact vectorOf_bit_of_no_pulse hsecond (fun k hk => pulseOf_after_tick s.cfg s.block s.lines hk) hi

end Sys2Proof.Machine
end

section
/-! The model's own choices about a step (logs 5, 6 and 15): the step for which the caller gives no command, and the
command placed by its table bits. -/

namespace Sys2Proof.Machine

/-- Settles O6: such a step fetches nothing. -/
theorem stepWithoutACommandIsIdle : Obligations.StepWithoutACommandIsIdle := step_idle

/-- Table bits that stand for port values are placed as those (log 5). -/
theorem withFetchWord_of_portOfBits {nbits w : Nat} {p : PortWord} (hp : portOfBits? nbits w = some p) (s : State) :
    s.withFetchWord nbits w = s.placePort p := by
  rw [State.withFetchWord, hp]

/-- The step after a placing runs the command of the placed port values. -/
theorem step_placePort (s : State) (p : PortWord) : step (s.placePort p) =
    exec (decodePort p) (s.present ((s.queue.head?.map Input.snap).getD s.lines) s.queue.tail) := by
  rw [step, fetch_placePort]

/-- A row of 16 bits that fits into the command word is format `CMD` (log 15). -/
theorem portOfBits_word {w : Nat} (hw : w < 1024) : portOfBits? 16 w = some ⟨false, BitVec.ofNat 10 w⟩ := by
  simp [portOfBits?, portOfBits, hw]

/-- The row of 8 bits with bit 0 set is format `RST` with the strobe (log 15). -/
theorem portOfBits_strobe : portOfBits? 8 1 = some ⟨true, 0x000#10⟩ := rfl

/-- Settles O7: a word comes without the strobe and decodes as itself, the strobe decodes as RESET. -/
theorem placedCommandIsRunNext : Obligations.PlacedCommandIsRunNext := by
  refine fun s w => ⟨fun hw => ?word, ?strobe⟩
  case word =>
    rw [withFetchWord_of_portOfBits (portOfBits_word hw), step_placePort, decodePort_word _ rfl]
    rfl
  case strobe =>
    rw [withFetchWord_of_portOfBits portOfBits_strobe, step_placePort, decodePort_rst _ rfl]
    rfl

end Sys2Proof.Machine
end
